-- ==== Sys2Proof/Word.lean ====
section
/-! DEFINITION. The word types of the machine (00_scope.md R4, R6): bytes, 16-bit words, register, key and display coordinates. -/

namespace Sys2Proof

/-- One 8-bit value: a register, a timer, a memory byte, an immediate `nn` (R4 REG_WIDTH, TIMER_WIDTH). -/
abbrev Byte := BitVec 8

/-- One 16-bit value: pc, I, a stack slot, an instruction word (R4 PC_WIDTH, I_WIDTH, INSTR_WIDTH). -/
abbrev Word := BitVec 16

/-- The number of a general register, V0 to VF (R20). -/
abbrev Reg := Fin 16

/-- The number of a keypad slot (R29). -/
abbrev Key := Fin 16

/-- VF, the flags register (R21). -/
abbrev vF : Reg := 15

/-- V0, the offset register of `JP V0, nnn` (R139). -/
abbrev v0 : Reg := 0

end Sys2Proof
end

