-- ==== Sys2Proof/Machine/Flags.lean ====
section
/-! DEFINITION. Every flag computation: what 8xy4 to 8xyE and Dxyn write to VF (10_state.md R21, 43_alu.md R150). Operands are
taken as unsigned numbers and compared exactly. -/

namespace Sys2Proof.Machine

/-- A flag as VF holds it: 0x01 or 0x00. -/
def flagByte (b : Bool) : Byte := if b then 0x01 else 0x00

/-- Carry out of an 8-bit addition: the exact sum exceeds 255 (R157). -/
def carryOut (a b : Byte) : Bool := 255 < a.toNat + b.toNat

/-- "No borrow" of `a - b`: a strictly greater than b; equal operands give 0 (R158, R160; 90_conflicts.md C3). -/
def noBorrow (a b : Byte) : Bool := b.toNat < a.toNat

/-- The bit a right shift by one shifts out, bit 0 (R159). -/
def shiftedOutRight (src : Byte) : Bool := src.getLsbD 0

/-- The bit a left shift by one shifts out, bit 7 (R161). -/
def shiftedOutLeft (src : Byte) : Bool := src.getLsbD 7

end Sys2Proof.Machine
end

