-- ==== Sys2Proof/Syntax.lean ====
section
/-! DEFINITION. The instructions: one constructor per row of spec/opcode_table.json (30_encoding.md R74), in the table's order.
Operands are the fields of 00_scope.md R9: `x`, `y` register numbers, `nn` a byte, `nnn` a 12-bit address, `n` a count of
sprite rows (a number, bounded by `Instr.wellFormed`). -/

namespace Sys2Proof

/-- The 34 instructions of R74. -/
inductive Instr where
  /-- 00E0 CLS (R110) -/
  | cls
  /-- 00EE RET (R132) -/
  | ret
  /-- 1nnn JP nnn (R133) -/
  | jp (nnn : BitVec 12)
  /-- 2nnn CALL nnn (R134) -/
  | call (nnn : BitVec 12)
  /-- 3xnn SE Vx, nn (R135) -/
  | seByte (x : Reg) (nn : Byte)
  /-- 4xnn SNE Vx, nn (R136) -/
  | sneByte (x : Reg) (nn : Byte)
  /-- 5xy0 SE Vx, Vy (R137) -/
  | seReg (x y : Reg)
  /-- 6xnn LD Vx, nn (R151) -/
  | ldByte (x : Reg) (nn : Byte)
  /-- 7xnn ADD Vx, nn (R152) -/
  | addByte (x : Reg) (nn : Byte)
  /-- 8xy0 LD Vx, Vy (R153) -/
  | ldReg (x y : Reg)
  /-- 8xy1 OR Vx, Vy (R154) -/
  | orReg (x y : Reg)
  /-- 8xy2 AND Vx, Vy (R155) -/
  | andReg (x y : Reg)
  /-- 8xy3 XOR Vx, Vy (R156) -/
  | xorReg (x y : Reg)
  /-- 8xy4 ADD Vx, Vy (R157) -/
  | addReg (x y : Reg)
  /-- 8xy5 SUB Vx, Vy (R158) -/
  | subReg (x y : Reg)
  /-- 8xy6 SHR Vx, Vy (R159) -/
  | shr (x y : Reg)
  /-- 8xy7 SUBN Vx, Vy (R160) -/
  | subn (x y : Reg)
  /-- 8xyE SHL Vx, Vy (R161) -/
  | shl (x y : Reg)
  /-- 9xy0 SNE Vx, Vy (R138) -/
  | sneReg (x y : Reg)
  /-- Annn LD I, nnn (R180) -/
  | ldI (nnn : BitVec 12)
  /-- Bnnn JP V0, nnn (R139) -/
  | jpV0 (nnn : BitVec 12)
  /-- Cxnn RND Vx, nn (R163) -/
  | rnd (x : Reg) (nn : Byte)
  /-- Dxyn DRW Vx, Vy, n (R111) -/
  | drw (x y : Reg) (n : Nat)
  /-- Ex9E SKP Vx (R201) -/
  | skp (x : Reg)
  /-- ExA1 SKNP Vx (R202) -/
  | sknp (x : Reg)
  /-- Fx07 LD Vx, DT (R203) -/
  | ldVxDt (x : Reg)
  /-- Fx0A LD Vx, K (R204) -/
  | ldVxK (x : Reg)
  /-- Fx15 LD DT, Vx (R205) -/
  | ldDtVx (x : Reg)
  /-- Fx18 LD ST, Vx (R206) -/
  | ldStVx (x : Reg)
  /-- Fx1E ADD I, Vx (R181) -/
  | addI (x : Reg)
  /-- Fx29 LD F, Vx (R182) -/
  | ldF (x : Reg)
  /-- Fx33 LD B, Vx (R183) -/
  | ldB (x : Reg)
  /-- Fx55 LD [I], Vx (R184) -/
  | storeRegs (x : Reg)
  /-- Fx65 LD Vx, [I] (R185) -/
  | loadRegs (x : Reg)
deriving DecidableEq, Repr

end Sys2Proof
end

