-- ==== Sys2Proof/WellFormed.lean ====
section
/-! DEFINITION. Which terms of `Instr` stand for an encodable instruction. Register numbers and immediates are bounded by their
types; the one operand that is a plain number is DRW's row count (30_encoding.md R72: "a 4-bit count 0..15"). -/

namespace Sys2Proof

/-- The row count of a sprite fits its 4-bit field (R72, R111). -/
def spriteRowsOk (n : Nat) : Bool := n ≤ 15

/-- An instruction that has an encoding (R72; log 21). -/
def Instr.wellFormed : Instr → Bool
  | .drw _ _ n => spriteRowsOk n
  | .cls | .ret | .jp _ | .call _ | .seByte _ _ | .sneByte _ _ | .seReg _ _ | .ldByte _ _ | .addByte _ _
  | .ldReg _ _ | .orReg _ _ | .andReg _ _ | .xorReg _ _ | .addReg _ _ | .subReg _ _ | .shr _ _ | .subn _ _
  | .shl _ _ | .sneReg _ _ | .ldI _ | .jpV0 _ | .rnd _ _ | .skp _ | .sknp _ | .ldVxDt _ | .ldVxK _
  | .ldDtVx _ | .ldStVx _ | .addI _ | .ldF _ | .ldB _ | .storeRegs _ | .loadRegs _ => true

end Sys2Proof
end

