-- ==== Sys2Proof/Decode.lean ====
section
/-! DEFINITION. Decoding (30_encoding.md R70 to R76), the encoder written from the same table, and the table's match and mask
words. Decoding is exact: every hexadecimal digit of a pattern must match (R73, D15, log 14). -/

namespace Sys2Proof

/-! ## Fields of an instruction word (00_scope.md R9) -/

/-- `op = w[15:12]`, the opcode family. -/
def opField (w : Word) : BitVec 4 := w.extractLsb' 12 4
/-- `x = w[11:8]`. -/
def xField (w : Word) : Reg := ⟨(w.extractLsb' 8 4).toNat, (w.extractLsb' 8 4).isLt⟩
/-- `y = w[7:4]`. -/
def yField (w : Word) : Reg := ⟨(w.extractLsb' 4 4).toNat, (w.extractLsb' 4 4).isLt⟩
/-- `n = w[3:0]`. -/
def nField (w : Word) : BitVec 4 := w.extractLsb' 0 4
/-- `nn = w[7:0]`. -/
def nnField (w : Word) : Byte := w.extractLsb' 0 8
/-- `nnn = w[11:0]`. -/
def nnnField (w : Word) : BitVec 12 := w.extractLsb' 0 12

/-! ## Decoding -/

/-- The names under which a word is rejected: the families of R75 that hold illegal words. -/
inductive IllegalWord where
  | family0 | family5 | family8 | family9 | familyE | familyF
deriving DecidableEq, Repr

/-- 8xyn by its sub-selector `n` (R73). -/
def decodeFamily8 (x y : Reg) (n : BitVec 4) : Except IllegalWord Instr :=
  if n = 0x0 then .ok (.ldReg x y)
  else if n = 0x1 then .ok (.orReg x y)
  else if n = 0x2 then .ok (.andReg x y)
  else if n = 0x3 then .ok (.xorReg x y)
  else if n = 0x4 then .ok (.addReg x y)
  else if n = 0x5 then .ok (.subReg x y)
  else if n = 0x6 then .ok (.shr x y)
  else if n = 0x7 then .ok (.subn x y)
  else if n = 0xE then .ok (.shl x y)
  else .error .family8

/-- Ex.. by its sub-selector `nn` (R73). -/
def decodeFamilyE (x : Reg) (nn : Byte) : Except IllegalWord Instr :=
  if nn = 0x9E then .ok (.skp x)
  else if nn = 0xA1 then .ok (.sknp x)
  else .error .familyE

/-- Fx.. by its sub-selector `nn` (R73). -/
def decodeFamilyF (x : Reg) (nn : Byte) : Except IllegalWord Instr :=
  if nn = 0x07 then .ok (.ldVxDt x)
  else if nn = 0x0A then .ok (.ldVxK x)
  else if nn = 0x15 then .ok (.ldDtVx x)
  else if nn = 0x18 then .ok (.ldStVx x)
  else if nn = 0x1E then .ok (.addI x)
  else if nn = 0x29 then .ok (.ldF x)
  else if nn = 0x33 then .ok (.ldB x)
  else if nn = 0x55 then .ok (.storeRegs x)
  else if nn = 0x65 then .ok (.loadRegs x)
  else .error .familyF

/-- 0nnn: only 00E0 and 00EE, matched on all twelve low bits (R73). -/
def decodeFamily0 (nnn : BitVec 12) : Except IllegalWord Instr :=
  if nnn = 0x0E0 then .ok .cls
  else if nnn = 0x0EE then .ok .ret
  else .error .family0

/-- Dispatch on the opcode family, then on the sub-selector (R73). -/
def decodeWord (w : Word) : Except IllegalWord Instr :=
  if opField w = 0x0 then decodeFamily0 (nnnField w)
  else if opField w = 0x1 then .ok (.jp (nnnField w))
  else if opField w = 0x2 then .ok (.call (nnnField w))
  else if opField w = 0x3 then .ok (.seByte (xField w) (nnField w))
  else if opField w = 0x4 then .ok (.sneByte (xField w) (nnField w))
  else if opField w = 0x5 then
    if nField w = 0x0 then .ok (.seReg (xField w) (yField w)) else .error .family5
  else if opField w = 0x6 then .ok (.ldByte (xField w) (nnField w))
  else if opField w = 0x7 then .ok (.addByte (xField w) (nnField w))
  else if opField w = 0x8 then decodeFamily8 (xField w) (yField w) (nField w)
  else if opField w = 0x9 then
    if nField w = 0x0 then .ok (.sneReg (xField w) (yField w)) else .error .family9
  else if opField w = 0xA then .ok (.ldI (nnnField w))
  else if opField w = 0xB then .ok (.jpV0 (nnnField w))
  else if opField w = 0xC then .ok (.rnd (xField w) (nnField w))
  else if opField w = 0xD then .ok (.drw (xField w) (yField w) (nField w).toNat)
  else if opField w = 0xE then decodeFamilyE (xField w) (nnField w)
  else decodeFamilyF (xField w) (nnField w)  -- 0xF, the one value left of four bits

/-- The instruction word in two bytes, the byte at the lower address in bits 15..8 (20_memory.md R52). -/
def wordOfBytes (hi lo : Byte) : Word := hi ++ lo

/-- Why a run of bytes is no instruction. -/
inductive DecodeError where
  /-- The word matches no row of the opcode table (R75). -/
  | illegal (why : IllegalWord)
  /-- Fewer than the two bytes every instruction has (R70). -/
  | truncated
deriving DecidableEq, Repr

/-- The first instruction of a list of bytes, and the bytes after it: total on any bytes (R70, R73). -/
def decode : List Byte → Except DecodeError (Instr × List Byte)
  | hi :: lo :: rest =>
    match decodeWord (wordOfBytes hi lo) with
    | .ok i => .ok (i, rest)
    | .error e => .error (.illegal e)
  | _ => .error .truncated

/-! ## Encoding -/

/-- A register number as the four bits of its field. -/
def regBits (r : Reg) : BitVec 4 := BitVec.ofNat 4 r.val

/-- Form A (R71): family and address. -/
def formA (op : BitVec 4) (nnn : BitVec 12) : Word := op ++ nnn
/-- Forms XI and X (R71): family, register, byte or sub-selector. -/
def formXI (op : BitVec 4) (x : Reg) (nn : Byte) : Word := op ++ regBits x ++ nn
/-- Forms XY and XYN (R71): family, two registers, sub-selector or row count. -/
def formXY (op : BitVec 4) (x y : Reg) (n : BitVec 4) : Word := op ++ regBits x ++ regBits y ++ n

/-- The word of an instruction, by the patterns of R74. For DRW with `n > 15`, which `Instr.wellFormed` rejects, the low four
bits of `n` stand in the field. -/
def encode : Instr → Word
  | .cls => 0x00E0
  | .ret => 0x00EE
  | .jp nnn => formA 0x1 nnn
  | .call nnn => formA 0x2 nnn
  | .seByte x nn => formXI 0x3 x nn
  | .sneByte x nn => formXI 0x4 x nn
  | .seReg x y => formXY 0x5 x y 0x0
  | .ldByte x nn => formXI 0x6 x nn
  | .addByte x nn => formXI 0x7 x nn
  | .ldReg x y => formXY 0x8 x y 0x0
  | .orReg x y => formXY 0x8 x y 0x1
  | .andReg x y => formXY 0x8 x y 0x2
  | .xorReg x y => formXY 0x8 x y 0x3
  | .addReg x y => formXY 0x8 x y 0x4
  | .subReg x y => formXY 0x8 x y 0x5
  | .shr x y => formXY 0x8 x y 0x6
  | .subn x y => formXY 0x8 x y 0x7
  | .shl x y => formXY 0x8 x y 0xE
  | .sneReg x y => formXY 0x9 x y 0x0
  | .ldI nnn => formA 0xA nnn
  | .jpV0 nnn => formA 0xB nnn
  | .rnd x nn => formXI 0xC x nn
  | .drw x y n => formXY 0xD x y (BitVec.ofNat 4 n)
  | .skp x => formXI 0xE x 0x9E
  | .sknp x => formXI 0xE x 0xA1
  | .ldVxDt x => formXI 0xF x 0x07
  | .ldVxK x => formXI 0xF x 0x0A
  | .ldDtVx x => formXI 0xF x 0x15
  | .ldStVx x => formXI 0xF x 0x18
  | .addI x => formXI 0xF x 0x1E
  | .ldF x => formXI 0xF x 0x29
  | .ldB x => formXI 0xF x 0x33
  | .storeRegs x => formXI 0xF x 0x55
  | .loadRegs x => formXI 0xF x 0x65

/-- The two bytes of an instruction in memory order (R52). -/
def encodeBytes (i : Instr) : List Byte :=
  [(encode i).extractLsb' 8 8, (encode i).extractLsb' 0 8]

/-! ## The opcode table's match and mask words (R74) -/

/-- One row of R74: a word `w` matches it when `w &&& mask = pattern`. -/
structure OpcodeRow where
  pattern : Word
  mask    : Word
deriving DecidableEq, Repr

/-- A word matches a row (R74). -/
def OpcodeRow.hits (r : OpcodeRow) (w : Word) : Bool := w &&& r.mask == r.pattern

/-- The row of R74 that an instruction belongs to. -/
def Instr.row : Instr → OpcodeRow
  | .cls => ⟨0x00E0, 0xFFFF⟩
  | .ret => ⟨0x00EE, 0xFFFF⟩
  | .jp _ => ⟨0x1000, 0xF000⟩
  | .call _ => ⟨0x2000, 0xF000⟩
  | .seByte _ _ => ⟨0x3000, 0xF000⟩
  | .sneByte _ _ => ⟨0x4000, 0xF000⟩
  | .seReg _ _ => ⟨0x5000, 0xF00F⟩
  | .ldByte _ _ => ⟨0x6000, 0xF000⟩
  | .addByte _ _ => ⟨0x7000, 0xF000⟩
  | .ldReg _ _ => ⟨0x8000, 0xF00F⟩
  | .orReg _ _ => ⟨0x8001, 0xF00F⟩
  | .andReg _ _ => ⟨0x8002, 0xF00F⟩
  | .xorReg _ _ => ⟨0x8003, 0xF00F⟩
  | .addReg _ _ => ⟨0x8004, 0xF00F⟩
  | .subReg _ _ => ⟨0x8005, 0xF00F⟩
  | .shr _ _ => ⟨0x8006, 0xF00F⟩
  | .subn _ _ => ⟨0x8007, 0xF00F⟩
  | .shl _ _ => ⟨0x800E, 0xF00F⟩
  | .sneReg _ _ => ⟨0x9000, 0xF00F⟩
  | .ldI _ => ⟨0xA000, 0xF000⟩
  | .jpV0 _ => ⟨0xB000, 0xF000⟩
  | .rnd _ _ => ⟨0xC000, 0xF000⟩
  | .drw _ _ _ => ⟨0xD000, 0xF000⟩
  | .skp _ => ⟨0xE09E, 0xF0FF⟩
  | .sknp _ => ⟨0xE0A1, 0xF0FF⟩
  | .ldVxDt _ => ⟨0xF007, 0xF0FF⟩
  | .ldVxK _ => ⟨0xF00A, 0xF0FF⟩
  | .ldDtVx _ => ⟨0xF015, 0xF0FF⟩
  | .ldStVx _ => ⟨0xF018, 0xF0FF⟩
  | .addI _ => ⟨0xF01E, 0xF0FF⟩
  | .ldF _ => ⟨0xF029, 0xF0FF⟩
  | .ldB _ => ⟨0xF033, 0xF0FF⟩
  | .storeRegs _ => ⟨0xF055, 0xF0FF⟩
  | .loadRegs _ => ⟨0xF065, 0xF0FF⟩

/-- The rows of R74 (and of spec/opcode_table.json) as a list, in the table's order. -/
def opcodeTable : List OpcodeRow :=
  ([⟨0x00E0, 0xFFFF⟩, ⟨0x00EE, 0xFFFF⟩, ⟨0x1000, 0xF000⟩, ⟨0x2000, 0xF000⟩, ⟨0x3000, 0xF000⟩, ⟨0x4000, 0xF000⟩,
    ⟨0x5000, 0xF00F⟩, ⟨0x6000, 0xF000⟩, ⟨0x7000, 0xF000⟩, ⟨0x8000, 0xF00F⟩, ⟨0x8001, 0xF00F⟩, ⟨0x8002, 0xF00F⟩,
    ⟨0x8003, 0xF00F⟩, ⟨0x8004, 0xF00F⟩, ⟨0x8005, 0xF00F⟩, ⟨0x8006, 0xF00F⟩, ⟨0x8007, 0xF00F⟩] : List OpcodeRow) ++
  ([⟨0x800E, 0xF00F⟩, ⟨0x9000, 0xF00F⟩, ⟨0xA000, 0xF000⟩, ⟨0xB000, 0xF000⟩, ⟨0xC000, 0xF000⟩, ⟨0xD000, 0xF000⟩,
    ⟨0xE09E, 0xF0FF⟩, ⟨0xE0A1, 0xF0FF⟩, ⟨0xF007, 0xF0FF⟩, ⟨0xF00A, 0xF0FF⟩, ⟨0xF015, 0xF0FF⟩, ⟨0xF018, 0xF0FF⟩,
    ⟨0xF01E, 0xF0FF⟩, ⟨0xF029, 0xF0FF⟩, ⟨0xF033, 0xF0FF⟩, ⟨0xF055, 0xF0FF⟩, ⟨0xF065, 0xF0FF⟩] : List OpcodeRow)

/-- A legal word: it matches a row of R74 (R73, R75). -/
def legalWord (w : Word) : Bool := opcodeTable.any (·.hits w)

/-! ## The host's view of the decoder -/

/-- The instruction the decoder reads from an instruction whose bits are `w`, numbered as spec/opcode_table.json numbers them:
the table's words are the 16-bit words of R74, stored big-endian (R52). Bits at and above `nbits` are 0. -/
def decodeTableWord (nbits w : Nat) : Option Instr :=
  let bits : Word := BitVec.ofNat 16 (w % 2 ^ nbits)
  match decode [bits.extractLsb' 8 8, bits.extractLsb' 0 8] with
  | .ok (i, _) => some i
  | .error _ => none

end Sys2Proof
end

