-- ==== Sys2Proof/Config.lean ====
section
/-! DEFINITION. What is fixed for one machine: the sizes of 00_scope.md R4, the three parameters of R5 with their defaults,
and the free value that stands for the random-byte service (R163, R234). -/

namespace Sys2Proof
namespace Config

/-- MEM_SIZE of R4: byte addresses 0x000 to 0xFFF. -/
def memSize : Nat := 4096
/-- DISPLAY_W of R4. -/
def displayWidth : Nat := 64
/-- DISPLAY_H of R4. -/
def displayHeight : Nat := 32
/-- FONT_BASE of R4. -/
def fontBase : Nat := 0x050
/-- FONT_SIZE of R4: 16 glyphs of 5 bytes. -/
def fontSize : Nat := 80
/-- PROGRAM_BASE of R4. -/
def programBase : Nat := 0x200
/-- MAX_PROGRAM of R4: 4096 - 0x200. -/
def maxProgram : Nat := 3584

/-- The random byte the RNG service gives to request number `k`, where the host has scripted none.
A FREE VALUE: the spec lets it be any of 0..255 (R163, D24, U6), so it has no body. DESIGN CHOICE, log 5. -/
opaque randomByte : Nat → Byte

end Config

/-- `SHIFT_SOURCE` of R5: which register 8xy6 and 8xyE shift. -/
inductive ShiftSource where
  | vy | vx
deriving DecidableEq, Repr

/-- `UNKNOWN_F_POLICY` of R5: what an F-family word outside the opcode table does. -/
inductive UnknownFPolicy where
  | fault | ignore
deriving DecidableEq, Repr

/-- `FONT` of R5: 16 glyphs of 5 bytes, top row first (R262). -/
abbrev Font := Vector (Vector Byte 5) 16

/-- The parameters of R5. They are fixed at construction; no step and no host transaction changes them (log 2). -/
structure Params where
  shiftSource : ShiftSource
  unknownF    : UnknownFPolicy
  font        : Font
deriving DecidableEq, Repr

/-- The default FONT of R263, glyph by glyph. PRESUMED (the spec's own mark: general knowledge, G1), log 3. -/
def defaultFont : Font :=
  #v[#v[0xF0, 0x90, 0x90, 0x90, 0xF0], #v[0x20, 0x60, 0x20, 0x20, 0x70],
     #v[0xF0, 0x10, 0xF0, 0x80, 0xF0], #v[0xF0, 0x10, 0xF0, 0x10, 0xF0],
     #v[0x90, 0x90, 0xF0, 0x10, 0x10], #v[0xF0, 0x80, 0xF0, 0x10, 0xF0],
     #v[0xF0, 0x80, 0xF0, 0x90, 0xF0], #v[0xF0, 0x10, 0x20, 0x40, 0x40],
     #v[0xF0, 0x90, 0xF0, 0x90, 0xF0], #v[0xF0, 0x90, 0xF0, 0x10, 0xF0],
     #v[0xF0, 0x90, 0xF0, 0x90, 0x90], #v[0xE0, 0x90, 0xE0, 0x90, 0xE0],
     #v[0xF0, 0x80, 0x80, 0x80, 0xF0], #v[0xE0, 0x90, 0x90, 0x90, 0xE0],
     #v[0xF0, 0x80, 0xF0, 0x80, 0xF0], #v[0xF0, 0x80, 0xF0, 0x80, 0x80]]

/-- The defaults of R5: `SHIFT_SOURCE = Vy`, `UNKNOWN_F_POLICY = Fault`, the font of R263. Log 2. -/
def Params.default : Params :=
  ⟨.vy, .fault, defaultFont⟩

end Sys2Proof
end

