-- ==== Sys2Proof/Machine/State.lean ====
section
/-! DEFINITION. The state of the machine (10_state.md R20 to R33), its fault record (60_exceptions.md R220, R221), and the state
after construction (70_reset_and_hazards.md R261). Plain data throughout. -/

namespace Sys2Proof.Machine

/-- The causes a step can fault with (R220). -/
inductive FaultCause where
  | illegalInstruction | stackOverflow | stackUnderflow | outOfBoundsAccess | keyIndexOutOfRange
deriving DecidableEq, Repr

/-- The fault record of R221: the cause, the address of the faulting instruction, the fetched word (none where fetch itself
faulted), and the information of R220's last column (the word, the lowest address out of bounds, or the key index). -/
structure FaultRecord where
  cause : FaultCause
  site  : Word
  word  : Option Word
  info  : Option Nat
deriving DecidableEq, Repr

/-- Whether the block can still step (R32). -/
inductive Status where
  | running
  | faulted (rec : FaultRecord)
deriving DecidableEq, Repr

/-- The display: column by column, row by row within a column; true is lit (R30). -/
abbrev Display := Vector (Vector Bool 32) 64

/-- Memory as the bytes that differ from their content at reset, addresses strictly rising (log 6). -/
abbrev Memory := List Host.Cell

/-- The model's view of the RNG service (R163, R234): bytes the host has supplied, first one first, and the number of bytes
requested so far, which selects the free value `Config.randomByte` when none is supplied (log 5). -/
structure RandomPort where
  script : List Byte
  drawn  : Nat
deriving DecidableEq, Repr

/-- All the state the spec gives the machine; `params` and `random` are the model's own fields (R33; log 2, log 5). -/
structure State where
  /-- V0 to VF (R20, R21). -/
  v      : Vector Byte 16
  /-- I, the index register (R24). -/
  i      : Word
  /-- The program counter (R22). -/
  pc     : Word
  /-- The stack pointer, a number in 0..16 (R26, D26). -/
  sp     : Fin 17
  /-- The call stack (R25). -/
  stack  : Vector Word 16
  /-- DT, the delay timer (R27). -/
  dt     : Byte
  /-- ST, the sound timer (R28). -/
  st     : Byte
  /-- The keypad latch (R29). -/
  keys   : Vector Bool 16
  /-- The display buffer (R30). -/
  disp   : Display
  /-- The memory array (R31). -/
  mem    : Memory
  /-- The run status (R32). -/
  status : Status
  /-- The parameters of R5. -/
  params : Params
  /-- The random-byte input (R234). -/
  random : RandomPort
deriving DecidableEq, Repr

/-- Why `step` stops. -/
inductive Fault where
  /-- Raised by `step` alone, of a block whose status is already Faulted: R99, "a step request does nothing to the state and
  reports `rec` again". Safe: the spec itself stops the block for good here. The fault that FIRST stops a block is no `Fault`:
  it is a next state whose status holds the record (R95; log 1). -/
  | stopped (rec : FaultRecord)
deriving DecidableEq, Repr

/-- Why the model gives an instruction no meaning. -/
inductive Refusal where
  /-- Raised by an arm of `exec` for an instruction that has no meaning yet. Safe. No arm does so. -/
  | notModelled (mnemonic : String)
deriving DecidableEq, Repr

/-- The state after construction with given parameters (R260, R261). Memory lists nothing: its content at reset is what an
unlisted address reads as (`unlistedByte`). -/
def State.construct (p : Params) : State where
  v      := Vector.replicate 16 0
  i      := 0
  pc     := 0x200
  sp     := 0
  stack  := Vector.replicate 16 0
  dt     := 0
  st     := 0
  keys   := Vector.replicate 16 false
  disp   := Vector.replicate 64 (Vector.replicate 32 false)
  mem    := []
  status := .running
  params := p
  random := ⟨[], 0⟩

/-- The machine right after reset, with the default parameters of R5 (R261; log 2). -/
def State.reset : State := State.construct Params.default

end Sys2Proof.Machine
end

