-- ==== Sys2Proof/Machine/Ops.lean ====
section
/-! DEFINITION. The named operations over registers, stack, keypad, display cells, memory, timers and the random input, and
taking a fault. Every instruction's meaning is written over these. -/

namespace Sys2Proof.Machine

/-- What a meaning and a step answer. -/
abbrev Result := Host.Outcome State Fault Refusal

/-! ## Registers (R20 to R28) -/

/-- `V[r]`. -/
def State.reg (s : State) (r : Reg) : Byte := s.v[r.val]
/-- `V[r] <- b`. -/
def State.setReg (s : State) (r : Reg) (b : Byte) : State := { s with v := s.v.set r.val b }
/-- `I <- a`. -/
def State.setI (s : State) (a : Word) : State := { s with i := a }
/-- `pc <- a`. -/
def State.setPc (s : State) (a : Word) : State := { s with pc := a }
/-- `DT <- b`. -/
def State.setDt (s : State) (b : Byte) : State := { s with dt := b }
/-- `ST <- b`. -/
def State.setSt (s : State) (b : Byte) : State := { s with st := b }

/-- First the result, then the flag: the write order of 8xy4 (R150, R157; D8, log 9). -/
def State.setResultThenFlag (s : State) (x : Reg) (result flag : Byte) : State := (s.setReg x result).setReg vF flag
/-- First the flag, then the result: the write order of 8xy5, 8xy6, 8xy7, 8xyE (R150, R158 to R161; D8, log 9). -/
def State.setFlagThenResult (s : State) (x : Reg) (result flag : Byte) : State := (s.setReg vF flag).setReg x result

/-- Registers from number `k` upward take the bytes in order, one register a byte (R185); bytes past VF are dropped. -/
def State.setRegsFrom (s : State) (k : Nat) : List Byte → State
  | [] => s
  | b :: bs => if h : k < 16 then (s.setReg ⟨k, h⟩ b).setRegsFrom (k + 1) bs else s

/-- V0 to Vx inclusive, in order (R184). -/
def State.regsUpTo (s : State) (x : Reg) : List Byte := s.v.toList.take (x.val + 1)

/-! ## Skips (R131) -/

/-- `pc <- pc + 2`, the advance of a fetch (R91). -/
def State.advance (s : State) : State := s.setPc (s.pc + 2)
/-- Skip the next instruction where the condition holds: a second `pc <- pc + 2` (R131). -/
def State.skipIf (s : State) (cond : Bool) : State := if cond then s.setPc (s.pc + 2) else s
/-- `pc <- pc - 2`: back to the instruction being executed (R204). -/
def State.rewind (s : State) : State := s.setPc (s.pc - 2)

/-! ## The call stack (R25, R26) -/

/-- `stack[j]`. -/
def State.slot (s : State) (j : Fin 16) : Word := s.stack[j.val]
/-- Push the pc: `stack[sp] <- pc`, then `sp <- sp + 1`; none where the stack is full (R134). -/
def State.pushPc (s : State) : Option State :=
  if h : s.sp.val < 16 then
    some { s with stack := s.stack.set s.sp.val s.pc, sp := ⟨s.sp.val + 1, Nat.succ_lt_succ h⟩ }
  else none
/-- Pop into the pc: `sp <- sp - 1`, then `pc <- stack[sp]`; none where the stack is empty. The slot keeps its value (R132,
R25; log 7). -/
def State.popPc (s : State) : Option State :=
  if h : 0 < s.sp.val then
    some { s with sp := ⟨s.sp.val - 1, by omega⟩, pc := s.stack[s.sp.val - 1]'(by omega) }
  else none

/-! ## The keypad latch (R29, R200) -/

/-- `key[k]`. -/
def State.key (s : State) (k : Key) : Bool := s.keys[k.val]
/-- The lowest-numbered pressed key, if any (R204). -/
def State.lowestKey (s : State) : Option Key := (List.finRange 16).find? s.key

/-! ## The display (R30) -/

/-- `disp[c][r]`. -/
def Display.cell (d : Display) (c : Fin 64) (r : Fin 32) : Bool := (d[c.val])[r.val]
/-- `disp[c][r] <- not disp[c][r]`. -/
def Display.toggle (d : Display) (c : Fin 64) (r : Fin 32) : Display :=
  d.set c.val ((d[c.val]).set r.val (!Display.cell d c r))
/-- Every cell unlit (R110). -/
def Display.blank : Display := Vector.replicate 64 (Vector.replicate 32 false)
/-- `disp[c][r]` of a state. -/
def State.cell (s : State) (c : Fin 64) (r : Fin 32) : Bool := Display.cell s.disp c r
/-- The display buffer is replaced. -/
def State.setDisp (s : State) (d : Display) : State := { s with disp := d }

/-! ## Memory (20_memory.md R50 to R63) -/

/-- What an address that memory does not list reads as: the content at reset, FONT at 0x050..0x09F and 0x00 elsewhere
(R57, R261, R262; log 6). -/
def unlistedByte (font : Font) (a : Nat) : Byte :=
  if h : Config.fontBase ≤ a ∧ a < Config.fontBase + Config.fontSize then
    (font[(a - Config.fontBase) / 5]'(by simp only [Config.fontBase, Config.fontSize] at h ⊢; omega))[(a - Config.fontBase) % 5]'(by omega)
  else 0

/-- The byte listed for an address, if any. -/
def Memory.find : Memory → Nat → Option Byte
  | [], _ => none
  | (k, b) :: m, a => if k = a then some b else Memory.find m a
/-- The byte at an address. -/
def Memory.read (font : Font) (m : Memory) (a : Nat) : Byte := (Memory.find m a).getD (unlistedByte font a)
/-- List a byte at its place among rising addresses. -/
def Memory.put : Memory → Nat → Byte → Memory
  | [], a, b => [(a, b)]
  | (k, c) :: m, a, b =>
    if a < k then (a, b) :: (k, c) :: m
    else if a = k then (a, b) :: m
    else (k, c) :: Memory.put m a b
/-- Take an address off the list. -/
def Memory.drop : Memory → Nat → Memory
  | [], _ => []
  | (k, c) :: m, a => if k = a then Memory.drop m a else (k, c) :: Memory.drop m a
/-- Write one byte. An address above 0xFFF does not exist and nothing is written there (R51: "the access does not happen"); no
meaning gets that far, since the whole range of an instruction is checked first (`outOfBounds`). -/
def Memory.write (font : Font) (m : Memory) (a : Nat) (b : Byte) : Memory :=
  if a < Config.memSize then
    if b = unlistedByte font a then Memory.drop m a else Memory.put m a b
  else m

/-- Addresses at and above `lo` strictly rise, exist, and list no byte they would read as anyway. -/
def Memory.wfFrom (font : Font) (lo : Nat) : Memory → Bool
  | [] => true
  | (k, b) :: m => lo ≤ k && k < Config.memSize && b != unlistedByte font k && Memory.wfFrom font (k + 1) m
/-- The canonical form of memory: equal memories are equal lists (log 6). -/
def Memory.wf (font : Font) (m : Memory) : Bool := Memory.wfFrom font 0 m

/-- `mem[a]`, for an address in 0x000..0xFFF. -/
def State.byteAt (s : State) (a : Nat) : Byte := Memory.read s.params.font s.mem a
/-- `mem[a] <- b`. -/
def State.storeByte (s : State) (a : Nat) (b : Byte) : State := { s with mem := Memory.write s.params.font s.mem a b }
/-- The `n` bytes from `base` upward (R55). -/
def State.bytesAt (s : State) (base n : Nat) : List Byte := (List.range n).map fun k => s.byteAt (base + k)
/-- Store bytes from `base` upward, lowest address first (R52, R55). -/
def State.storeBytes (s : State) (base : Nat) : List Byte → State
  | [] => s
  | b :: bs => (s.storeByte base b).storeBytes (base + 1) bs

/-- The lowest address above 0xFFF among the `n` bytes from `base` upward, if any of them lies there; addresses are exact
integers and never wrap (R51, R53, R223; D7, log 8). -/
def outOfBounds (base n : Nat) : Option Nat :=
  if 0 < n ∧ Config.memSize < base + n then some (max base Config.memSize) else none

/-! ## Timers (R96, R230) -/

/-- One tick of one timer: down by one, stopping at 0. -/
def tickTimer (t : Byte) : Byte := if t = 0 then 0 else t - 1
/-- The timer tick phase (R96). -/
def State.tick (s : State) : State := { s with dt := tickTimer s.dt, st := tickTimer s.st }

/-! ## The random-byte input (R163, R234) -/

/-- The byte the RNG service gives to the next request: the first one the host has supplied, else a free value (log 5). -/
def State.nextRandom (s : State) : Byte := s.random.script.headD (Config.randomByte s.random.drawn)
/-- One byte has been requested. -/
def State.drawRandom (s : State) : State := { s with random := ⟨s.random.script.tail, s.random.drawn + 1⟩ }
/-- The host supplies bytes for the coming requests. -/
def State.supplyRandom (s : State) (bytes : List Byte) : State := { s with random := ⟨bytes, s.random.drawn⟩ }

/-! ## Taking a fault (R95, R220, R221, R226)

The entry of a fault saves no pc in a register, changes no mode and goes to no handler: the state is what it was before the
step, and `status` holds the record. There is no return from a fault (R227, R99): no operation sets `status` back to Running. -/

/-- The numeric codes of R220 (labels only: the spec's own choice D3, log 20). -/
def FaultCause.code : FaultCause → Nat
  | .illegalInstruction => 1
  | .stackOverflow => 2
  | .stackUnderflow => 3
  | .outOfBoundsAccess => 4
  | .keyIndexOutOfRange => 5

/-- Take a fault raised by the instruction at address `site`: pc keeps `site`, `status` becomes Faulted with the record of
R221, nothing else changes (R95; log 1). -/
def State.takeFault (s : State) (cause : FaultCause) (site : Word) (word : Option Word) (info : Option Nat) : State :=
  { s with pc := site, status := .faulted ⟨cause, site, word, info⟩ }

/-- A fault raised at execute by instruction `i`: fetch has added 2 to pc and nothing else has changed, so the instruction's
address is pc - 2 and its word is `encode i` (R93, R95, R221; log 19). -/
def raise (cause : FaultCause) (info : Option Nat) (i : Instr) (s : State) : Result :=
  .next (s.takeFault cause (s.pc - 2) (some (encode i)) info)

/-- Whether the block can still step (R32). -/
def State.isRunning (s : State) : Bool := s.status == .running

end Sys2Proof.Machine
end

