-- ==== Sys2Proof/Machine/Operands.lean ====
section
/-! DEFINITION. Every operand form of 30_encoding.md R71, R72: how a field of the instruction becomes a value, a target, an
address, a key or a display coordinate. -/

namespace Sys2Proof.Machine

/-- `zext_16(nnn)`: an absolute target or address (R72, R133, R134, R180). -/
def addressOperand (nnn : BitVec 12) : Word := nnn.zeroExtend 16

/-- `zext_16(V0) + zext_16(nnn)` (R139): at most 0x10FE, so it never wraps. -/
def State.offsetTarget (s : State) (nnn : BitVec 12) : Word := (s.reg v0).zeroExtend 16 + addressOperand nnn

/-- The shifted source of 8xy6 and 8xyE (R159, R161; R5 SHIFT_SOURCE, log 2). -/
def State.shiftOperand (s : State) (x y : Reg) : Byte :=
  match s.params.shiftSource with
  | .vy => s.reg y
  | .vx => s.reg x

/-- `KeyRead`'s index check (R200): none where V[x] names no key (D12, log 11). -/
def State.keyOperand (s : State) (x : Reg) : Option Key :=
  if h : (s.reg x).toNat < 16 then some ⟨(s.reg x).toNat, h⟩ else none

/-- `V[x] mod 64`, the column of a sprite's left edge (R111). -/
def State.spriteColumn (s : State) (x : Reg) : Nat := (s.reg x).toNat % Config.displayWidth
/-- `V[y] mod 32`, the row of a sprite's top edge (R111). -/
def State.spriteRow (s : State) (y : Reg) : Nat := (s.reg y).toNat % Config.displayHeight

/-- `zext_16(v) * 5 + 0x050`, the whole byte used (R182; D13, log 12). -/
def glyphAddress (v : Byte) : Word := v.zeroExtend 16 * 5 + BitVec.ofNat 16 Config.fontBase

/-- `(I + zext_16(v)) mod 2^16` (R181; D6, log 10). -/
def State.indexSum (s : State) (v : Byte) : Word := s.i + v.zeroExtend 16

/-- Hundreds, tens and ones of a byte (R183). -/
def decimalDigits (v : Byte) : List Byte :=
  [BitVec.ofNat 8 (v.toNat / 100), BitVec.ofNat 8 (v.toNat / 10 % 10), BitVec.ofNat 8 (v.toNat % 10)]

/-- The lowest address out of bounds among the `n` bytes at I, if any (R51, R55). -/
def State.indexOutOfBounds (s : State) (n : Nat) : Option Nat := outOfBounds s.i.toNat n

end Sys2Proof.Machine
end

