-- ==== Sys2Proof/Machine/Alu.lean ====
section
/-! DEFINITION. Register and ALU instructions (43_alu.md R150 to R163). Operands are read before the first write; the writes
happen in the order of the rule (D8, log 9). None of them can fault. -/

namespace Sys2Proof.Machine

/-- 6xnn LD Vx, nn (R151). -/
def execLdByte (x : Reg) (nn : Byte) (s : State) : Result := .next (s.setReg x nn)

/-- 7xnn ADD Vx, nn: wrapping, no flag (R152). -/
def execAddByte (x : Reg) (nn : Byte) (s : State) : Result := .next (s.setReg x (s.reg x + nn))

/-- 8xy0 LD Vx, Vy (R153). -/
def execLdReg (x y : Reg) (s : State) : Result := .next (s.setReg x (s.reg y))

/-- 8xy1 OR Vx, Vy: no flag (R154). -/
def execOr (x y : Reg) (s : State) : Result := .next (s.setReg x (s.reg x ||| s.reg y))

/-- 8xy2 AND Vx, Vy: no flag (R155). -/
def execAnd (x y : Reg) (s : State) : Result := .next (s.setReg x (s.reg x &&& s.reg y))

/-- 8xy3 XOR Vx, Vy: no flag (R156). -/
def execXor (x y : Reg) (s : State) : Result := .next (s.setReg x (s.reg x ^^^ s.reg y))

/-- 8xy4 ADD Vx, Vy: the sum, then the carry (R157). -/
def execAddReg (x y : Reg) (s : State) : Result :=
  .next (s.setResultThenFlag x (s.reg x + s.reg y) (flagByte (carryOut (s.reg x) (s.reg y))))

/-- 8xy5 SUB Vx, Vy: no-borrow, then the difference (R158). -/
def execSub (x y : Reg) (s : State) : Result :=
  .next (s.setFlagThenResult x (s.reg x - s.reg y) (flagByte (noBorrow (s.reg x) (s.reg y))))

/-- 8xy6 SHR Vx, Vy: the bit shifted out, then the shifted source (R159). -/
def execShr (x y : Reg) (s : State) : Result :=
  let src := s.shiftOperand x y
  .next (s.setFlagThenResult x (src >>> 1) (flagByte (shiftedOutRight src)))

/-- 8xy7 SUBN Vx, Vy: no-borrow, then the reverse difference (R160). -/
def execSubn (x y : Reg) (s : State) : Result :=
  .next (s.setFlagThenResult x (s.reg y - s.reg x) (flagByte (noBorrow (s.reg y) (s.reg x))))

/-- 8xyE SHL Vx, Vy: the bit shifted out, then the shifted source (R161). -/
def execShl (x y : Reg) (s : State) : Result :=
  let src := s.shiftOperand x y
  .next (s.setFlagThenResult x (src <<< 1) (flagByte (shiftedOutLeft src)))

/-- Cxnn RND Vx, nn: one byte is requested, whatever the mask (R163). -/
def execRnd (x : Reg) (nn : Byte) (s : State) : Result := .next (s.drawRandom.setReg x (s.nextRandom &&& nn))

end Sys2Proof.Machine
end

