-- ==== Sys2Proof/Machine/Control.lean ====
section
/-! DEFINITION. Control transfer: jumps, the call stack, skips (42_control_flow.md R130 to R139). pc already holds the address
after the instruction (R93). -/

namespace Sys2Proof.Machine

/-- 00EE RET (R132). -/
def execRet (s : State) : Result :=
  match s.popPc with
  | some t => .next t
  | none => raise .stackUnderflow none .ret s

/-- 1nnn JP nnn (R133). -/
def execJp (nnn : BitVec 12) (s : State) : Result := .next (s.setPc (addressOperand nnn))

/-- 2nnn CALL nnn (R134). -/
def execCall (nnn : BitVec 12) (s : State) : Result :=
  match s.pushPc with
  | some t => .next (t.setPc (addressOperand nnn))
  | none => raise .stackOverflow none (.call nnn) s

/-- 3xnn SE Vx, nn (R135). -/
def execSeByte (x : Reg) (nn : Byte) (s : State) : Result := .next (s.skipIf (s.reg x == nn))

/-- 4xnn SNE Vx, nn (R136). -/
def execSneByte (x : Reg) (nn : Byte) (s : State) : Result := .next (s.skipIf (s.reg x != nn))

/-- 5xy0 SE Vx, Vy (R137). -/
def execSeReg (x y : Reg) (s : State) : Result := .next (s.skipIf (s.reg x == s.reg y))

/-- 9xy0 SNE Vx, Vy (R138). -/
def execSneReg (x y : Reg) (s : State) : Result := .next (s.skipIf (s.reg x != s.reg y))

/-- Bnnn JP V0, nnn (R139). -/
def execJpV0 (nnn : BitVec 12) (s : State) : Result := .next (s.setPc (s.offsetTarget nnn))

end Sys2Proof.Machine
end

