-- ==== Sys2Proof/Machine/Sprite.lean ====
section
/-! DEFINITION. The sprite XOR engine with collision detection (41_display.md R111, R112). It carries the display and the
collision flag through the scan; the flag is accumulated, never reset part-way (90_conflicts.md C2). -/

namespace Sys2Proof.Machine

/-- The display during a scan, and whether a lit cell has been turned unlit so far. -/
abbrev Scan := Display × Bool

/-- A column, wrapped modulo the display width (R111). -/
def wrapColumn (c : Nat) : Fin 64 := ⟨c % 64, Nat.mod_lt _ (by decide)⟩
/-- A row, wrapped modulo the display height (R111). -/
def wrapRow (r : Nat) : Fin 32 := ⟨r % 32, Nat.mod_lt _ (by decide)⟩

/-- One sprite bit over one cell: a set bit XORs the cell, and collides where the cell was lit (R111). -/
def xorBit (c : Fin 64) (r : Fin 32) (bit : Bool) (acc : Scan) : Scan :=
  if bit then (Display.toggle acc.1 c r, acc.2 || Display.cell acc.1 c r) else acc

/-- Bit 7 of a sprite byte is column offset 0, bit 0 is column offset 7 (R112; D10, log 4). -/
def spriteBit (b : Byte) (offset : Nat) : Bool := b.getLsbD (7 - offset)

/-- One sprite byte at a row: the column offsets 0 to 7 in order (R111). -/
def xorRow (x0 row : Nat) (b : Byte) (acc : Scan) : Scan :=
  (List.range 8).foldl (fun acc c => xorBit (wrapColumn (x0 + c)) (wrapRow row) (spriteBit b c) acc) acc

/-- The rows of a sprite from `row` downward (R111). -/
def xorRows (x0 row : Nat) : List Byte → Scan → Scan
  | [], acc => acc
  | b :: bs, acc => xorRows x0 (row + 1) bs (xorRow x0 row b acc)

/-- A whole sprite with its top-left cell at column `x0`, row `y0` (R111). -/
def drawSprite (x0 y0 : Nat) (sprite : List Byte) (d : Display) : Scan := xorRows x0 y0 sprite (d, false)

end Sys2Proof.Machine
end

