-- ==== Sys2Proof/Machine/Display.lean ====
section
/-! DEFINITION. The display instructions (41_display.md R110, R111). -/

namespace Sys2Proof.Machine

/-- 00E0 CLS: every cell unlit (R110). -/
def execCls (s : State) : Result := .next (s.setDisp Display.blank)

/-- Dxyn DRW Vx, Vy, n (R111): coordinates are read first, all sprite bytes are checked before any cell changes, VF is written
once after the scan. -/
def execDrw (x y : Reg) (n : Nat) (s : State) : Result :=
  match s.indexOutOfBounds n with
  | some a => raise .outOfBoundsAccess (some a) (.drw x y n) s
  | none =>
    let scan := drawSprite (s.spriteColumn x) (s.spriteRow y) (s.bytesAt s.i.toNat n) s.disp
    .next ((s.setDisp scan.1).setReg vF (flagByte scan.2))

end Sys2Proof.Machine
end

