-- ==== Sys2Proof/Machine/IndexMemory.lean ====
section
/-! DEFINITION. Index register and memory instructions (44_index_memory.md R180 to R185). I is never changed by a memory access
(D14, log 13); every byte is checked before the first write (D7, log 8). -/

namespace Sys2Proof.Machine

/-- Annn LD I, nnn (R180). -/
def execLdI (nnn : BitVec 12) (s : State) : Result := .next (s.setI (addressOperand nnn))

/-- Fx1E ADD I, Vx: modulo 2^16, no flag, no fault (R181). -/
def execAddI (x : Reg) (s : State) : Result := .next (s.setI (s.indexSum (s.reg x)))

/-- Fx29 LD F, Vx (R182). -/
def execLdF (x : Reg) (s : State) : Result := .next (s.setI (glyphAddress (s.reg x)))

/-- Fx33 LD B, Vx: three decimal digits to I, I + 1, I + 2 (R183). -/
def execLdB (x : Reg) (s : State) : Result :=
  match s.indexOutOfBounds 3 with
  | some a => raise .outOfBoundsAccess (some a) (.ldB x) s
  | none => .next (s.storeBytes s.i.toNat (decimalDigits (s.reg x)))

/-- Fx55 LD [I], Vx: V0 to Vx to I, I + 1, ... (R184). -/
def execStoreRegs (x : Reg) (s : State) : Result :=
  match s.indexOutOfBounds (x.val + 1) with
  | some a => raise .outOfBoundsAccess (some a) (.storeRegs x) s
  | none => .next (s.storeBytes s.i.toNat (s.regsUpTo x))

/-- Fx65 LD Vx, [I]: the bytes at I, I + 1, ... to V0 to Vx (R185). -/
def execLoadRegs (x : Reg) (s : State) : Result :=
  match s.indexOutOfBounds (x.val + 1) with
  | some a => raise .outOfBoundsAccess (some a) (.loadRegs x) s
  | none => .next (s.setRegsFrom 0 (s.bytesAt s.i.toNat (x.val + 1)))

end Sys2Proof.Machine
end

