-- ==== Sys2Proof/Machine/KeypadTimers.lean ====
section
/-! DEFINITION. Keypad and timer instructions (45_keypad_timers.md R200 to R206). -/

namespace Sys2Proof.Machine

/-- Ex9E SKP Vx: skip if the key is pressed (R200, R201). -/
def execSkp (x : Reg) (s : State) : Result :=
  match s.keyOperand x with
  | some k => .next (s.skipIf (s.key k))
  | none => raise .keyIndexOutOfRange (some (s.reg x).toNat) (.skp x) s

/-- ExA1 SKNP Vx: skip if the key is not pressed (R200, R202). -/
def execSknp (x : Reg) (s : State) : Result :=
  match s.keyOperand x with
  | some k => .next (s.skipIf (!s.key k))
  | none => raise .keyIndexOutOfRange (some (s.reg x).toNat) (.sknp x) s

/-- Fx07 LD Vx, DT: the value before this step's tick (R203). -/
def execLdVxDt (x : Reg) (s : State) : Result := .next (s.setReg x s.dt)

/-- Fx0A LD Vx, K: the lowest pressed key, else the instruction is fetched again by the next step (R204; D17, log 16). -/
def execLdVxK (x : Reg) (s : State) : Result :=
  match s.lowestKey with
  | some k => .next (s.setReg x (BitVec.ofNat 8 k.val))
  | none => .next s.rewind

/-- Fx15 LD DT, Vx (R205). -/
def execLdDtVx (x : Reg) (s : State) : Result := .next (s.setDt (s.reg x))

/-- Fx18 LD ST, Vx (R206). -/
def execLdStVx (x : Reg) (s : State) : Result := .next (s.setSt (s.reg x))

end Sys2Proof.Machine
end

