-- ==== Sys2Proof/Machine/Cycle.lean ====
section
/-! DEFINITION. The phases of a step: fetch, decode, execute, timer tick (40_cycle.md R90 to R96). -/

namespace Sys2Proof.Machine

/-- The two bytes at pc and pc + 1, big-endian (R91, R52). -/
def State.fetchedWord (s : State) : Word := wordOfBytes (s.byteAt s.pc.toNat) (s.byteAt (s.pc.toNat + 1))

/-- The first address out of bounds that a fetch would read, if any (R91, R53). -/
def State.fetchOutOfBounds (s : State) : Option Nat := outOfBounds s.pc.toNat 2

/-- The end of a step: the timer tick, which a step that faulted does not reach (R95, R96). -/
def State.finish (s : State) : State := if s.isRunning then s.tick else s

/-- Execute and tick (R93, R96). -/
def completeStep (r : Result) : Result :=
  match r with
  | .next t => .next t.finish
  | .fault f => .fault f
  | .refused m => .refused m

/-- The F-family word outside the opcode table under `UNKNOWN_F_POLICY = Ignore`: execute changes nothing (R94). -/
def execIgnoredF (s : State) : Result := .next s

/-- A word the decoder rejects, in the state before the step: the no-operation of R94 for an F-family word under
`UNKNOWN_F_POLICY = Ignore`, else the fault IllegalInstruction (R92; log 2). -/
def rejectWord (e : IllegalWord) (w : Word) (s : State) : Result :=
  if e = .familyF ∧ s.params.unknownF = .ignore then completeStep (execIgnoredF s.advance)
  else .next (s.takeFault .illegalInstruction s.pc (some w) (some w.toNat))

/-- Decode the fetched word and execute it in the state after fetch (R92, R93). -/
def runWord (w : Word) (s : State) : Result :=
  match decodeWord w with
  | .ok i => completeStep (exec i s.advance)
  | .error e => rejectWord e w s

/-- One step of a running block (R90). -/
def runCycle (s : State) : Result :=
  match s.fetchOutOfBounds with
  | some a => .next (s.takeFault .outOfBoundsAccess s.pc none (some a))
  | none => runWord s.fetchedWord s

/-- A step request: a Faulted block does nothing and reports its record again (R90, R99). -/
def stepBlock (s : State) : Result :=
  match s.status with
  | .running => runCycle s
  | .faulted rec => .fault (.stopped rec)

/-- The bytes of an instruction stored at two addresses, big-endian (R52). -/
def State.storeWord (s : State) (a : Nat) (w : Word) : State :=
  s.storeBytes a [w.extractLsb' 8 8, w.extractLsb' 0 8]

end Sys2Proof.Machine
end

