-- ==== Sys2Proof/Machine/Step.lean ====
section
/-! DEFINITION. One step of the block (40_cycle.md R90), and a program word placed where the next step fetches it. -/

namespace Sys2Proof.Machine

/-- One step (R90, R99). -/
def step (s : State) : Host.Outcome State Fault Refusal := stepBlock s

/-- `s` with the instruction of bits `w` (numbered as the opcode table numbers them, bits at and above `nbits` zero) stored at
pc and pc + 1, where a running block with pc at most 0xFFE fetches. From State.reset this is the load of a two-byte image
(R264, R266; log 18). -/
def State.withFetchWord (s : State) (nbits w : Nat) : State :=
  s.storeWord s.pc.toNat (BitVec.ofNat 16 (w % 2 ^ nbits))

end Sys2Proof.Machine
end

