-- ==== Sys2Proof/Machine/Interface.lean ====
section
/-! DEFINITION. The block's interface: the host's transactions, one per operation, each between steps (60_exceptions.md R240,
R97). Construction is `State.construct`. -/

namespace Sys2Proof.Machine

/-- The load operation's only failure, code 6 (R222; 90_conflicts.md C6). -/
inductive LoadError where
  | programTooLarge
deriving DecidableEq, Repr

/-- The numeric code of R222. -/
def LoadError.code : LoadError → Nat
  | .programTooLarge => 6

/-- `load_program(bytes)` (R264): the length is checked before any byte is written; nothing but memory changes (D19, log 18). -/
def State.loadProgram (s : State) (image : List Byte) : Except LoadError State :=
  if image.length ≤ Config.maxProgram then .ok (s.storeBytes Config.programBase image) else .error .programTooLarge

/-- Set or clear one slot of the keypad latch (R240, R29, R232). -/
def State.setKey (s : State) (k : Key) (pressed : Bool) : State := { s with keys := s.keys.set k.val pressed }

/-- What a step reports to the host: Ok, or the fault record (R90, R221). -/
inductive StepReport where
  | ok
  | faulted (rec : FaultRecord)
  | refused (why : Refusal)
deriving DecidableEq, Repr

/-- The report of a state: Ok while it runs, else its record. -/
def State.report (s : State) : StepReport :=
  match s.status with
  | .running => .ok
  | .faulted rec => .faulted rec

/-- `step(rand)` (R90): the host's byte is there for this step alone, and a Faulted block keeps its state and reports its
record again (R99). -/
def State.stepWith (s : State) (rand : Byte) : State × StepReport :=
  match step (s.supplyRandom [rand]) with
  | .next t => (t.supplyRandom [], t.report)
  | .fault (.stopped rec) => (s, .faulted rec)
  | .refused m => (s, .refused m)

/-- The host's moves on a constructed block (R240, R241). -/
inductive Transaction where
  | load (image : List Byte)
  | step (rand : Byte)
  | setKey (k : Key) (pressed : Bool)
  | readDisplay
  | readState
deriving DecidableEq, Repr

/-- What a transaction answers (R240). -/
inductive Response where
  | done
  | loadFailed (why : LoadError)
  | stepped (report : StepReport)
  | display (d : Display)
  | contents (s : State)
deriving DecidableEq, Repr

/-- One transaction (R240): the block after it and the answer. Reading changes nothing. -/
def State.transact (s : State) : Transaction → State × Response
  | .load image =>
    match s.loadProgram image with
    | .ok t => (t, .done)
    | .error e => (s, .loadFailed e)
  | .step rand => ((s.stepWith rand).1, .stepped (s.stepWith rand).2)
  | .setKey k pressed => (s.setKey k pressed, .done)
  | .readDisplay => (s, .display s.disp)
  | .readState => (s, .contents s)

/-- The block after a sequence of transactions (R240: none overlapping another). -/
def State.afterAll (s : State) (ts : List Transaction) : State := ts.foldl (fun s t => (s.transact t).1) s

end Sys2Proof.Machine
end

