-- ==== Sys2Proof/Safety.lean ====
section
/-! DEFINITION. The terms statements about the machine use: the parts of a state and what leaves them alone, which part an
instruction may write, where a step leaves pc, what a sprite covers, and the invariant of reachable states. Each is written from
the spec's summary rules, not from the meanings. -/

namespace Sys2Proof.Machine

/-! ## Parts of the state and frames -/

/-- The parts a state is made of (10_state.md R20 to R32, and the model's own two fields). -/
inductive Part where
  | reg (r : Reg) | index | pc | sp | slot (j : Fin 16) | delay | sound | key (k : Key)
  | cell (c : Fin 64) (r : Fin 32) | byte (a : Nat) | status | params | random
deriving DecidableEq, Repr

/-- Two states agree on one part; memory is compared through the read of one byte. -/
def Same (s t : State) : Part → Prop
  | .reg r => t.reg r = s.reg r
  | .index => t.i = s.i
  | .pc => t.pc = s.pc
  | .sp => t.sp = s.sp
  | .slot j => t.slot j = s.slot j
  | .delay => t.dt = s.dt
  | .sound => t.st = s.st
  | .key k => t.key k = s.key k
  | .cell c r => t.cell c r = s.cell c r
  | .byte a => t.byteAt a = s.byteAt a
  | .status => t.status = s.status
  | .params => t.params = s.params
  | .random => t.random = s.random

/-- From `s` to `t` no part changes but the allowed ones: a frame. -/
def ChangesOnly (allowed : Part → Prop) (s t : State) : Prop := ∀ p, ¬ allowed p → Same s t p

/-- A word stands for an instruction: the decoder reads it so and the encoder writes it so (R73, R74). -/
def StandsFor (w : Word) (i : Instr) : Prop := decodeWord w = .ok i ∧ encode i = w

/-! ## Where a step leaves pc (R23, R100) -/

/-- The address of the next instruction as an exact number, by the table of R23: from the state before a step whose
instruction `i` raises no fault. -/
def nextPc (s : State) : Instr → Nat
  | .jp nnn | .call nnn => nnn.toNat
  | .ret => (s.stack[s.sp.val - 1]'(by have := s.sp.isLt; omega)).toNat
  | .jpV0 nnn => (s.reg v0).toNat + nnn.toNat
  | .seByte x nn => if s.reg x = nn then s.pc.toNat + 4 else s.pc.toNat + 2
  | .sneByte x nn => if s.reg x = nn then s.pc.toNat + 2 else s.pc.toNat + 4
  | .seReg x y => if s.reg x = s.reg y then s.pc.toNat + 4 else s.pc.toNat + 2
  | .sneReg x y => if s.reg x = s.reg y then s.pc.toNat + 2 else s.pc.toNat + 4
  | .skp x => if ∃ k : Key, k.val = (s.reg x).toNat ∧ s.key k = true then s.pc.toNat + 4 else s.pc.toNat + 2
  | .sknp x => if ∃ k : Key, k.val = (s.reg x).toNat ∧ s.key k = true then s.pc.toNat + 2 else s.pc.toNat + 4
  | .ldVxK _ => if ∃ k : Key, s.key k = true then s.pc.toNat + 2 else s.pc.toNat
  | .cls | .ldByte _ _ | .addByte _ _ | .ldReg _ _ | .orReg _ _ | .andReg _ _ | .xorReg _ _ | .addReg _ _
  | .subReg _ _ | .shr _ _ | .subn _ _ | .shl _ _ | .ldI _ | .rnd _ _ | .drw _ _ _ | .ldVxDt _ | .ldDtVx _
  | .ldStVx _ | .addI _ | .ldF _ | .ldB _ | .storeRegs _ | .loadRegs _ => s.pc.toNat + 2

/-! ## Faults -/

/-- The fault that executing `i` in `s` raises, if any: its cause and its information (R220's columns "raised by", "when",
"info recorded"). -/
def faultOf (s : State) : Instr → Option (FaultCause × Option Nat)
  | .ret => if s.sp.val = 0 then some (.stackUnderflow, none) else none
  | .call _ => if s.sp.val = 16 then some (.stackOverflow, none) else none
  | .drw _ _ n => beyondMemory s.i.toNat n
  | .ldB _ => beyondMemory s.i.toNat 3
  | .storeRegs x | .loadRegs x => beyondMemory s.i.toNat (x.val + 1)
  | .skp x | .sknp x => if 0x0F < (s.reg x).toNat then some (.keyIndexOutOfRange, some (s.reg x).toNat) else none
  | .cls | .jp _ | .seByte _ _ | .sneByte _ _ | .seReg _ _ | .ldByte _ _ | .addByte _ _ | .ldReg _ _ | .orReg _ _
  | .andReg _ _ | .xorReg _ _ | .addReg _ _ | .subReg _ _ | .shr _ _ | .subn _ _ | .shl _ _ | .sneReg _ _ | .ldI _
  | .jpV0 _ | .rnd _ _ | .ldVxDt _ | .ldVxK _ | .ldDtVx _ | .ldStVx _ | .addI _ | .ldF _ => none
where
  /-- Of `n` bytes from `base` upward, is one above 0xFFF, and which is the lowest such (R51, R223). -/
  beyondMemory (base n : Nat) : Option (FaultCause × Option Nat) :=
    if n ≠ 0 ∧ 0xFFF < base + n - 1 then
      some (.outOfBoundsAccess, some (if 0xFFF < base then base else 0x1000))
    else none

/-- A safe step: the block goes on and has raised no fault. -/
def SafeStep (s t : State) : Prop := step s = .next t ∧ t.status = .running

/-! ## What a sprite covers (R111, R112) -/

/-- Whether a set bit of the sprite with top-left cell (`x0`, `y0`) falls on the cell in column `c`, row `r`: bit 7 of a byte is
its leftmost column, both coordinates wrap. -/
def covers (x0 y0 : Nat) (sprite : List Byte) (c : Fin 64) (r : Fin 32) : Prop :=
  ∃ dc dr : Nat, dc < 8 ∧ ∃ h : dr < sprite.length,
    (x0 + dc) % 64 = c.val ∧ (y0 + dr) % 32 = r.val ∧ (sprite[dr]).getLsbD (7 - dc) = true

/-! ## Which parts an instruction writes (10_state.md R20 to R30, 40_cycle.md R95) -/

/-- The cells under set bits of the `n`-row sprite that DRW Vx, Vy, n reads at I (R111, R113). -/
def State.underSprite (s : State) (x y : Reg) (n : Nat) (c : Fin 64) (r : Fin 32) : Prop :=
  covers ((s.reg x).toNat % 64) ((s.reg y).toNat % 32) (s.bytesAt s.i.toNat n) c r

/-- The parts that an instruction which raises no fault may write, from the state after fetch: the "written by" columns of
R20 to R30, with the stack slot at sp (R134), the cells under the sprite (R111, R113) and the bytes at I (R183, R184). -/
def writes (s : State) : Instr → Part → Prop
  | .cls, p => ∃ c r, p = .cell c r
  | .ret, p => p = .pc ∨ p = .sp
  | .jp _, p | .jpV0 _, p => p = .pc
  | .call _, p => p = .pc ∨ p = .sp ∨ ∃ j : Fin 16, j.val = s.sp.val ∧ p = .slot j
  | .seByte _ _, p | .sneByte _ _, p | .seReg _ _, p | .sneReg _ _, p => p = .pc
  | .ldByte x _, p | .addByte x _, p | .ldReg x _, p | .orReg x _, p | .andReg x _, p | .xorReg x _, p => p = .reg x
  | .addReg x _, p | .subReg x _, p | .shr x _, p | .subn x _, p | .shl x _, p => p = .reg x ∨ p = .reg vF
  | .ldI _, p | .addI _, p | .ldF _, p => p = .index
  | .rnd x _, p => p = .reg x ∨ p = .random
  | .drw x y n, p => p = .reg vF ∨ ∃ c r, s.underSprite x y n c r ∧ p = .cell c r
  | .skp _, p | .sknp _, p => p = .pc
  | .ldVxDt x, p => p = .reg x
  | .ldVxK x, p => (p = .reg x ∧ ∃ k, s.key k = true) ∨ (p = .pc ∧ ∀ k, s.key k = false)
  | .ldDtVx _, p => p = .delay
  | .ldStVx _, p => p = .sound
  | .ldB _, p => ∃ k, k < 3 ∧ p = .byte (s.i.toNat + k)
  | .storeRegs x, p => ∃ r : Reg, r ≤ x ∧ p = .byte (s.i.toNat + r.val)
  | .loadRegs x, p => ∃ r : Reg, r ≤ x ∧ p = .reg r

/-- The parts that an instruction may write at execute: where it raises a fault, pc (back to the instruction) and status
(R95), and else those of `writes`. -/
def mayWrite (s : State) (i : Instr) (p : Part) : Prop :=
  match faultOf s i with
  | some _ => p = .pc ∨ p = .status
  | none => writes s i p

/-! ## The invariant of reachable states -/

/-- What holds in every reachable state: pc and the saved pcs stay where R100 says, and memory keeps its canonical form. -/
structure Inv (s : State) : Prop where
  /-- "In every state reachable from reset pc ≤ 0x10FE" (R100). -/
  pcBound : s.pc.toNat ≤ 0x10FE
  /-- "CALL fills stack slots with a pc ≤ 0x1000 and reset fills them with 0" (R100). -/
  slotBound : ∀ j, (s.slot j).toNat ≤ 0x1000
  /-- Memory is in its canonical form (log 6). -/
  memory : Memory.wf s.params.font s.mem = true

end Sys2Proof.Machine
end

