-- ==== Sys2Proof/Certificates/Slice0/Obligations.lean ====
section
/-! DEFINITION. The statements for the provers. Each docstring names the rule of spec/ it formalises; where a clause rests on a
decision the spec marks as its own, or on the model's choice, it names the decision and the log entry. -/

open Sys2Proof Sys2Proof.Machine

/-! ## Encoding -/

/-- Words of each family written out from 30_encoding.md R74 decode to the instruction they stand for. -/
def Obligations.SampleWordsDecode : Prop :=
  decodeWord 0x00E0 = .ok .cls ∧ decodeWord 0xD015 = .ok (.drw 0 1 5) ∧ decodeWord 0x220A = .ok (.call 0x20A) ∧
  decodeWord 0x3342 = .ok (.seByte 3 0x42) ∧ decodeWord 0x8AB5 = .ok (.subReg 0xA 0xB) ∧
  decodeWord 0xC30F = .ok (.rnd 3 0x0F) ∧ decodeWord 0xF51E = .ok (.addI 5) ∧ decodeWord 0xF265 = .ok (.loadRegs 2) ∧
  decodeWord 0xE2A1 = .ok (.sknp 2) ∧ decodeWord 0xF30A = .ok (.ldVxK 3) ∧
  decodeWord 0x01E0 = .error .family0 ∧ decodeWord 0xF0FF = .error .familyF

/-- Decoding the two bytes of a well-formed instruction gives it back, with every operand, and leaves the bytes after it
(R70, R73, R74). -/
def Obligations.DecodeOfEncodeIsIdentity : Prop :=
  ∀ (i : Instr) (rest : List Byte), i.wellFormed = true → decode (encodeBytes i ++ rest) = .ok (i, rest)

/-- Two bytes that decode are the encoding of what they decode to, which is well-formed: no two words stand for one instruction
(R73, R74). -/
def Obligations.EncodeOfDecodeIsIdentity : Prop :=
  ∀ (hi lo : Byte) (rest rest' : List Byte) (i : Instr), decode (hi :: lo :: rest) = .ok (i, rest') →
    i.wellFormed = true ∧ encodeBytes i = [hi, lo] ∧ rest' = rest

/-- A word decodes exactly when it matches a row of the opcode table, and then the one row it matches is its instruction's
(R73; exact matching is the spec's own choice D15, log 14). -/
def Obligations.DecodesExactlyByTheOpcodeTable : Prop :=
  ∀ w : Word, ((∃ i, decodeWord w = .ok i) ↔ legalWord w = true) ∧
    ∀ i, decodeWord w = .ok i → ∀ row ∈ opcodeTable, (row.hits w = true ↔ row = i.row)

/-- The illegal words are exactly those of the table of R75, each rejected under its family's name (D15, log 14). -/
def Obligations.IllegalWordsByFamily : Prop :=
  ∀ w : Word,
    (decodeWord w = .error .family0 ↔ w.toNat / 4096 = 0x0 ∧ w.toNat % 4096 ∉ [0x0E0, 0x0EE]) ∧
    (decodeWord w = .error .family5 ↔ w.toNat / 4096 = 0x5 ∧ w.toNat % 16 ≠ 0) ∧
    (decodeWord w = .error .family8 ↔ w.toNat / 4096 = 0x8 ∧ w.toNat % 16 ∈ [0x8, 0x9, 0xA, 0xB, 0xC, 0xD, 0xF]) ∧
    (decodeWord w = .error .family9 ↔ w.toNat / 4096 = 0x9 ∧ w.toNat % 16 ≠ 0) ∧
    (decodeWord w = .error .familyE ↔ w.toNat / 4096 = 0xE ∧ w.toNat % 256 ∉ [0x9E, 0xA1]) ∧
    (decodeWord w = .error .familyF ↔ w.toNat / 4096 = 0xF ∧
      w.toNat % 256 ∉ [0x07, 0x0A, 0x15, 0x18, 0x1E, 0x29, 0x33, 0x55, 0x65])

/-! ## The step -/

/-- Where the bytes at pc and pc + 1 decode to a well-formed instruction, a step of a running block is `exec` of it in the state
with pc advanced by 2, then the timer tick, which a step that has faulted does not reach (40_cycle.md R90, R91, R93, R96;
D7, D18). -/
def Obligations.StepRunsDecodedInstruction : Prop :=
  ∀ (s : State) (i : Instr), s.status = .running → s.pc.toNat ≤ 0xFFE → i.wellFormed = true →
    decode [s.byteAt s.pc.toNat, s.byteAt (s.pc.toNat + 1)] = .ok (i, []) →
    step s = match exec i (s.setPc (s.pc + 2)) with
      | .next t => .next (if t.status = .running then t.tick else t)
      | .fault f => .fault f
      | .refused m => .refused m

/-- A fetch that would read above 0xFFF faults with the first byte out of bounds and changes nothing else (R53, R91; the
spec's own choice D7, log 8). -/
def Obligations.FetchBeyondMemoryFaults : Prop :=
  ∀ s : State, s.status = .running → 0xFFE < s.pc.toNat →
    step s = .next { s with status := .faulted ⟨.outOfBoundsAccess, s.pc, none,
      some (if s.pc.toNat = 0xFFF then 0x1000 else s.pc.toNat)⟩ }

/-- A word that matches no row faults with IllegalInstruction carrying the word; an F-family one under
`UNKNOWN_F_POLICY = Ignore` is a no-operation that still ticks the timers (R92, R94; D4, log 2). -/
def Obligations.IllegalWordFaultsOrIsIgnored : Prop :=
  ∀ (s : State) (w : Word), s.status = .running → s.pc.toNat ≤ 0xFFE →
    w = s.byteAt s.pc.toNat ++ s.byteAt (s.pc.toNat + 1) → legalWord w = false →
    step s = if w.toNat / 4096 = 0xF ∧ s.params.unknownF = .ignore then .next (s.setPc (s.pc + 2)).tick
      else .next { s with status := .faulted ⟨.illegalInstruction, s.pc, some w, some w.toNat⟩ }

/-- A step request to a Faulted block reports its record again and does nothing, and no transaction sets the status back to
Running (R99; D2, log 1). -/
def Obligations.FaultedBlockStaysFaulted : Prop :=
  ∀ (s : State) (rec : FaultRecord), s.status = .faulted rec →
    step s = .fault (.stopped rec) ∧ (∀ rand, s.stepWith rand = (s, .faulted rec)) ∧
    ∀ tr, (s.transact tr).1.status = .faulted rec

/-- Faults are precise: a step that faults changes the status alone, and the record holds the address of the instruction and the
fetched word, or none where fetch itself faulted (R95, R221; D2, D18, log 1). -/
def Obligations.FaultsArePrecise : Prop :=
  ∀ (s t : State) (rec : FaultRecord), step s = .next t → t.status = .faulted rec →
    t = { s with status := .faulted rec } ∧ rec.site = s.pc ∧
    rec.word = if s.pc.toNat ≤ 0xFFE then some (s.byteAt s.pc.toNat ++ s.byteAt (s.pc.toNat + 1)) else none

/-- A step of a running block always answers a next state, and so does every instruction in every state: nothing is refused and
nothing stops the model but a block already Faulted (R90, R93; log 1). -/
def Obligations.RunningStepAlwaysCompletes : Prop :=
  (∀ s : State, s.status = .running → ∃ t, step s = .next t) ∧ ∀ (i : Instr) (s : State), ∃ t, exec i s = .next t

/-- An instruction faults exactly when, and with what cause and information, the table of 60_exceptions.md R220 says, and then
takes the fault at its own address; else it leaves the block running (R220, R221; D7, D12, log 1, log 8, log 11). -/
def Obligations.ExecuteFaultsExactlyByTheTable : Prop :=
  ∀ (i : Instr) (s : State), s.status = .running → ∃ t, exec i s = .next t ∧
    match faultOf s i with
    | none => t.status = .running
    | some (cause, info) =>
      t = { s with pc := s.pc - 2, status := .faulted ⟨cause, s.pc - 2, some (encode i), info⟩ }

/-- The timer tick: in every step that did not fault, whatever the instruction, each timer ends one below what it held (or was
set to by Fx15, Fx18), and at 0 where that is 0 (R96). -/
def Obligations.TimersTickOncePerCompletedStep : Prop :=
  ∀ s t : State, step s = .next t → t.status = .running →
    (t.dt.toNat = match decodeWord s.fetchedWord with
      | .ok (.ldDtVx x) => (s.reg x).toNat - 1
      | _ => s.dt.toNat - 1) ∧
    (t.st.toNat = match decodeWord s.fetchedWord with
      | .ok (.ldStVx x) => (s.reg x).toNat - 1
      | _ => s.st.toNat - 1)

/-- pc after a step that raises no fault is the number in the table of 10_state.md R23, computed exactly: it never wraps
(R23, R100, both derived by the spec); a no-operation of R94 leaves pc + 2. -/
def Obligations.PcAfterStepByTheTable : Prop :=
  ∀ s t : State, SafeStep s t →
    t.pc.toNat = match decodeWord s.fetchedWord with
      | .ok i => nextPc s i
      | .error _ => s.pc.toNat + 2

/-! ## Invariants -/

/-- Every step keeps the invariant of reachable states: pc at most 0x10FE, saved pcs at most 0x1000, memory in canonical form
(R100, derived by the spec; log 6). -/
def Obligations.StepKeepsInvariant : Prop :=
  ∀ s t : State, Inv s → step s = .next t → Inv t

/-- The invariant holds after construction, for every value of the parameters, and so at reset (R100, R261; log 6). -/
def Obligations.InvariantAfterConstruction : Prop :=
  (∀ p : Params, Inv (State.construct p)) ∧ Inv State.reset

/-- The invariant holds in every state a block reaches by any sequence of host transactions: loads, steps with any bytes, keys set
and cleared (R100, R240; log 6, log 18). -/
def Obligations.EveryReachableBlockMeetsInvariant : Prop :=
  ∀ (p : Params) (ts : List Transaction), Inv ((State.construct p).afterAll ts)

/-- The frame of every instruction at once. An instruction that raises a fault writes pc and status alone (R95); any other
writes no part of the state but those that the "written by" lists of 10_state.md R20 to R30 give it: of the stack the slot at sp
(R134), of the display the cells under the sprite (R111, R113; D10, log 4), of memory the bytes at I (R183, R184). No instruction
writes the keypad or the parameters (R29, R33), and I stays under Fx55 and Fx65 (D14, log 13). -/
def Obligations.OnlyListedWritersWrite : Prop :=
  ∀ (i : Instr) (s t : State), exec i s = .next t → ChangesOnly (mayWrite s i) s t

/-- No instruction reads ST: two blocks that differ in ST alone differ in ST alone after a step (10_state.md R28). -/
def Obligations.SoundTimerIsNeverRead : Prop :=
  ∀ (s t : State) (b : Byte), step s = .next t → ∃ b', step (s.setSt b) = .next (t.setSt b')

/-- A stack slot at or above sp is never observed: two blocks that differ in such a slot alone differ in that slot alone after a
step (10_state.md R33, R25; D21, log 7). -/
def Obligations.DeadStackSlotsAreNeverRead : Prop :=
  ∀ (s t : State) (j : Fin 16) (w : Word), s.sp.val ≤ j.val → step s = .next t →
    ∃ w', step { s with stack := s.stack.set j.val w } = .next { t with stack := t.stack.set j.val w' }

/-! ## Display instructions -/

/-- 00E0 CLS (R110). -/
def Obligations.ClsClearsTheDisplay : Prop :=
  StandsFor 0x00E0 .cls ∧
  ∀ s : State, ∃ t, exec .cls s = .next t ∧ (∀ c r, t.cell c r = false) ∧
    ChangesOnly (fun p => ∃ c r, p = .cell c r) s t

/-- Dxyn DRW with its bytes in memory: the scan of the sprite engine is one XOR of every covered cell, VF is 1 exactly when a
covered cell was lit, and no cell outside the sprite changes; n = 0 draws nothing and writes VF <- 0 (R111, R112; the bit order
and n = 0 are the spec's own choices D10, D11, log 4, log 17). -/
def Obligations.DrwXorsCoveredCells : Prop :=
  ∀ (x y : Reg) (n : Nat) (s : State), n ≤ 15 → (n = 0 ∨ s.i.toNat + n - 1 ≤ 0xFFF) →
    StandsFor (formXY 0xD x y (BitVec.ofNat 4 n)) (.drw x y n) ∧
    ∃ t, exec (.drw x y n) s = .next t ∧
      (∀ c r, covers ((s.reg x).toNat % 64) ((s.reg y).toNat % 32)
          ((List.range n).map fun k => s.byteAt (s.i.toNat + k)) c r → t.cell c r = !s.cell c r) ∧
      (∀ c r, ¬ covers ((s.reg x).toNat % 64) ((s.reg y).toNat % 32)
          ((List.range n).map fun k => s.byteAt (s.i.toNat + k)) c r → t.cell c r = s.cell c r) ∧
      ((∃ c r, covers ((s.reg x).toNat % 64) ((s.reg y).toNat % 32)
          ((List.range n).map fun k => s.byteAt (s.i.toNat + k)) c r ∧ s.cell c r = true) → t.reg vF = 0x01) ∧
      ((¬ ∃ c r, covers ((s.reg x).toNat % 64) ((s.reg y).toNat % 32)
          ((List.range n).map fun k => s.byteAt (s.i.toNat + k)) c r ∧ s.cell c r = true) → t.reg vF = 0x00) ∧
      ChangesOnly (fun p => p = .reg vF ∨ ∃ c r, p = .cell c r) s t

/-- Dxyn DRW with a byte above 0xFFF faults at its own address before any cell changes, with the lowest such address (R111;
D7, log 8). -/
def Obligations.DrwBeyondMemoryFaults : Prop :=
  ∀ (x y : Reg) (n : Nat) (s : State), 1 ≤ n → n ≤ 15 → 0xFFF < s.i.toNat + n - 1 →
    exec (.drw x y n) s = .next
        { s with
          pc := s.pc - 2
          status := .faulted ⟨.outOfBoundsAccess, s.pc - 2, some (formXY 0xD x y (BitVec.ofNat 4 n)), some (max s.i.toNat 0x1000)⟩ }

/-- Drawing one sprite twice at one place restores the display, and the second draw collides exactly when the first turned an
unlit cell lit (R113, derived by the spec). -/
def Obligations.DrwTwiceRestoresTheDisplay : Prop :=
  ∀ (x y : Reg) (n : Nat) (s t u : State), n ≤ 15 → (n = 0 ∨ s.i.toNat + n - 1 ≤ 0xFFF) →
    exec (.drw x y n) s = .next t → (t.reg x).toNat % 64 = (s.reg x).toNat % 64 →
    (t.reg y).toNat % 32 = (s.reg y).toNat % 32 → exec (.drw x y n) t = .next u →
    u.disp = s.disp ∧ (u.reg vF = if ∃ c r, s.cell c r = false ∧ t.cell c r = true then 0x01 else 0x00)

/-! ## Control transfer -/

/-- 00EE RET: the slot below sp goes to pc and sp falls by one; with an empty stack it faults and sp, pc and all else stay as
they were before the step (R132; that the slot and all else stay is the spec's own choice D2, D21, log 1, log 7). -/
def Obligations.RetPopsOrUnderflows : Prop :=
  StandsFor 0x00EE .ret ∧
  (∀ (s : State) (j : Fin 16), j.val + 1 = s.sp.val → ∃ t, exec .ret s = .next t ∧
    t.sp.val = j.val ∧ t.pc = s.slot j ∧ ChangesOnly (fun p => p = .pc ∨ p = .sp) s t) ∧
  (∀ s : State, s.sp.val = 0 → exec .ret s = .next
      { s with
        pc := s.pc - 2
        status := .faulted ⟨.stackUnderflow, s.pc - 2, some 0x00EE, none⟩ })

/-- 1nnn JP nnn (R133). -/
def Obligations.JpSetsPc : Prop :=
  ∀ (nnn : BitVec 12) (s : State), StandsFor (formA 0x1 nnn) (.jp nnn) ∧
    ∃ t, exec (.jp nnn) s = .next t ∧ t.pc.toNat = nnn.toNat ∧ ChangesOnly (· = .pc) s t

/-- 2nnn CALL nnn: pc goes to the slot at sp, sp rises by one, pc is nnn, and a RET then restores pc and sp; with a full stack it
faults and the stack stays (R134; that all else stays is the spec's own choice D2, log 1). -/
def Obligations.CallPushesOrOverflows : Prop :=
  ∀ (nnn : BitVec 12) (s : State), StandsFor (formA 0x2 nnn) (.call nnn) ∧
    (∀ j : Fin 16, j.val = s.sp.val → ∃ t, exec (.call nnn) s = .next t ∧
      t.slot j = s.pc ∧ t.sp.val = j.val + 1 ∧ t.pc.toNat = nnn.toNat ∧
      ChangesOnly (fun p => p = .pc ∨ p = .sp ∨ p = .slot j) s t ∧
      ∃ u, exec .ret t = .next u ∧ u.pc = s.pc ∧ u.sp = s.sp) ∧
    (s.sp.val = 16 → exec (.call nnn) s = .next
        { s with
          pc := s.pc - 2
          status := .faulted ⟨.stackOverflow, s.pc - 2, some (formA 0x2 nnn), none⟩ })

/-- 3xnn SE and 4xnn SNE: pc goes on by 2 exactly when Vx equals, respectively differs from, nn (R135, R136). -/
def Obligations.SkipOnByteCompare : Prop :=
  ∀ (x : Reg) (nn : Byte) (s : State),
    StandsFor (formXI 0x3 x nn) (.seByte x nn) ∧ StandsFor (formXI 0x4 x nn) (.sneByte x nn) ∧
    (∃ t, exec (.seByte x nn) s = .next t ∧ t.pc = (if s.reg x = nn then s.pc + 2 else s.pc) ∧
      ChangesOnly (· = .pc) s t) ∧
    (∃ t, exec (.sneByte x nn) s = .next t ∧ t.pc = (if s.reg x ≠ nn then s.pc + 2 else s.pc) ∧
      ChangesOnly (· = .pc) s t)

/-- 5xy0 SE and 9xy0 SNE: pc goes on by 2 exactly when Vx equals, respectively differs from, Vy (R137, R138). -/
def Obligations.SkipOnRegisterCompare : Prop :=
  ∀ (x y : Reg) (s : State),
    StandsFor (formXY 0x5 x y 0x0) (.seReg x y) ∧ StandsFor (formXY 0x9 x y 0x0) (.sneReg x y) ∧
    (∃ t, exec (.seReg x y) s = .next t ∧ t.pc = (if s.reg x = s.reg y then s.pc + 2 else s.pc) ∧
      ChangesOnly (· = .pc) s t) ∧
    (∃ t, exec (.sneReg x y) s = .next t ∧ t.pc = (if s.reg x ≠ s.reg y then s.pc + 2 else s.pc) ∧
      ChangesOnly (· = .pc) s t)

/-- Bnnn JP V0, nnn: the sum is exact, not reduced modulo 4096 (R139). -/
def Obligations.JpV0AddsV0 : Prop :=
  ∀ (nnn : BitVec 12) (s : State), StandsFor (formA 0xB nnn) (.jpV0 nnn) ∧
    ∃ t, exec (.jpV0 nnn) s = .next t ∧ t.pc.toNat = (s.reg 0).toNat + nnn.toNat ∧ ChangesOnly (· = .pc) s t

/-! ## Registers and ALU -/

/-- 6xnn LD Vx, nn (R151). -/
def Obligations.LdByteSetsRegister : Prop :=
  ∀ (x : Reg) (nn : Byte) (s : State), StandsFor (formXI 0x6 x nn) (.ldByte x nn) ∧
    ∃ t, exec (.ldByte x nn) s = .next t ∧ t.reg x = nn ∧ ChangesOnly (· = .reg x) s t

/-- 7xnn ADD Vx, nn: modulo 256, VF written only as the destination (R152). -/
def Obligations.AddByteWrapsWithoutFlag : Prop :=
  ∀ (x : Reg) (nn : Byte) (s : State), StandsFor (formXI 0x7 x nn) (.addByte x nn) ∧
    ∃ t, exec (.addByte x nn) s = .next t ∧ (t.reg x).toNat = ((s.reg x).toNat + nn.toNat) % 256 ∧
      ChangesOnly (· = .reg x) s t

/-- 8xy0 LD Vx, Vy (R153). -/
def Obligations.LdRegCopiesRegister : Prop :=
  ∀ (x y : Reg) (s : State), StandsFor (formXY 0x8 x y 0x0) (.ldReg x y) ∧
    ∃ t, exec (.ldReg x y) s = .next t ∧ t.reg x = s.reg y ∧ ChangesOnly (· = .reg x) s t

/-- 8xy1 OR, 8xy2 AND, 8xy3 XOR: bit by bit, VF written only as the destination (R154, R155, R156). -/
def Obligations.LogicIsBitwiseWithoutFlag : Prop :=
  ∀ (x y : Reg) (s : State),
    StandsFor (formXY 0x8 x y 0x1) (.orReg x y) ∧ StandsFor (formXY 0x8 x y 0x2) (.andReg x y) ∧
    StandsFor (formXY 0x8 x y 0x3) (.xorReg x y) ∧
    (∃ t, exec (.orReg x y) s = .next t ∧
      (∀ k, (t.reg x).getLsbD k = ((s.reg x).getLsbD k || (s.reg y).getLsbD k)) ∧ ChangesOnly (· = .reg x) s t) ∧
    (∃ t, exec (.andReg x y) s = .next t ∧
      (∀ k, (t.reg x).getLsbD k = ((s.reg x).getLsbD k && (s.reg y).getLsbD k)) ∧ ChangesOnly (· = .reg x) s t) ∧
    (∃ t, exec (.xorReg x y) s = .next t ∧
      (∀ k, (t.reg x).getLsbD k = ((s.reg x).getLsbD k ^^ (s.reg y).getLsbD k)) ∧ ChangesOnly (· = .reg x) s t)

/-- 8xy4 ADD Vx, Vy: VF is the carry, and Vx the sum modulo 256 unless x = 0xF, where the carry is the last write (R157; operands
read first is the spec's own choice D8, log 9). -/
def Obligations.AddRegWritesSumThenCarry : Prop :=
  ∀ (x y : Reg) (s : State), StandsFor (formXY 0x8 x y 0x4) (.addReg x y) ∧
    ∃ t, exec (.addReg x y) s = .next t ∧
      t.reg vF = (if 255 < (s.reg x).toNat + (s.reg y).toNat then 0x01 else 0x00) ∧
      (x ≠ vF → (t.reg x).toNat = ((s.reg x).toNat + (s.reg y).toNat) % 256) ∧
      ChangesOnly (fun p => p = .reg x ∨ p = .reg vF) s t

/-- 8xy5 SUB and 8xy7 SUBN: Vx is the difference modulo 256 (for x = 0xF too, the last write), and otherwise VF is 1 exactly when
the minuend is strictly greater (R158, R160; operands read first is the spec's own choice D8, log 9). -/
def Obligations.SubWritesNoBorrowThenDifference : Prop :=
  ∀ (x y : Reg) (s : State),
    StandsFor (formXY 0x8 x y 0x5) (.subReg x y) ∧ StandsFor (formXY 0x8 x y 0x7) (.subn x y) ∧
    (∃ t, exec (.subReg x y) s = .next t ∧
      (t.reg x).toNat = ((s.reg x).toNat + 256 - (s.reg y).toNat) % 256 ∧
      (x ≠ vF → t.reg vF = if (s.reg y).toNat < (s.reg x).toNat then 0x01 else 0x00) ∧
      ChangesOnly (fun p => p = .reg x ∨ p = .reg vF) s t) ∧
    (∃ t, exec (.subn x y) s = .next t ∧
      (t.reg x).toNat = ((s.reg y).toNat + 256 - (s.reg x).toNat) % 256 ∧
      (x ≠ vF → t.reg vF = if (s.reg x).toNat < (s.reg y).toNat then 0x01 else 0x00) ∧
      ChangesOnly (fun p => p = .reg x ∨ p = .reg vF) s t)

/-- 8xy6 SHR and 8xyE SHL, for each value of SHIFT_SOURCE: Vx is the shifted source (for x = 0xF too, the last write), and
otherwise VF is the bit shifted out (R159, R161; D5, D8, log 2, log 9). -/
def Obligations.ShiftsWriteBitThenResult : Prop :=
  ∀ (x y : Reg) (s : State) (src : Byte),
    src = (match s.params.shiftSource with | .vy => s.reg y | .vx => s.reg x) →
    StandsFor (formXY 0x8 x y 0x6) (.shr x y) ∧ StandsFor (formXY 0x8 x y 0xE) (.shl x y) ∧
    (∃ t, exec (.shr x y) s = .next t ∧ (t.reg x).toNat = src.toNat / 2 ∧
      (x ≠ vF → (t.reg vF).toNat = src.toNat % 2) ∧
      ChangesOnly (fun p => p = .reg x ∨ p = .reg vF) s t) ∧
    (∃ t, exec (.shl x y) s = .next t ∧ (t.reg x).toNat = src.toNat * 2 % 256 ∧
      (x ≠ vF → (t.reg vF).toNat = src.toNat / 128) ∧
      ChangesOnly (fun p => p = .reg x ∨ p = .reg vF) s t)

/-- Cxnn RND Vx, nn: exactly one byte is requested, whatever the mask; it is the host's next byte, any of 0 to 255, and where the
host has supplied none, a free value about which nothing is known (R163; D24, log 5). -/
def Obligations.RndMasksOneRequestedByte : Prop :=
  ∀ (x : Reg) (nn : Byte) (s : State), StandsFor (formXI 0xC x nn) (.rnd x nn) ∧
    (∀ (b : Byte) (rest : List Byte), s.random.script = b :: rest → ∃ t, exec (.rnd x nn) s = .next t ∧
      t.reg x = b &&& nn ∧ t.random = ⟨rest, s.random.drawn + 1⟩ ∧
      ChangesOnly (fun p => p = .reg x ∨ p = .random) s t) ∧
    (s.random.script = [] → ∃ t, exec (.rnd x nn) s = .next t ∧
      t.reg x = Config.randomByte s.random.drawn &&& nn ∧ t.random = ⟨[], s.random.drawn + 1⟩ ∧
      ChangesOnly (fun p => p = .reg x ∨ p = .random) s t)

/-! ## Index register and memory -/

/-- Annn LD I, nnn (R180). -/
def Obligations.LdISetsIndex : Prop :=
  ∀ (nnn : BitVec 12) (s : State), StandsFor (formA 0xA nnn) (.ldI nnn) ∧
    ∃ t, exec (.ldI nnn) s = .next t ∧ t.i.toNat = nnn.toNat ∧ ChangesOnly (· = .index) s t

/-- Fx1E ADD I, Vx: modulo 2^16, no flag, no fault (R181; D6, log 10). -/
def Obligations.AddIWrapsAtSixteenBits : Prop :=
  ∀ (x : Reg) (s : State), StandsFor (formXI 0xF x 0x1E) (.addI x) ∧
    ∃ t, exec (.addI x) s = .next t ∧ t.i.toNat = (s.i.toNat + (s.reg x).toNat) % 65536 ∧ ChangesOnly (· = .index) s t

/-- Fx29 LD F, Vx: the whole byte is used (R182; D13, log 12). -/
def Obligations.LdFPointsAtGlyph : Prop :=
  ∀ (x : Reg) (s : State), StandsFor (formXI 0xF x 0x29) (.ldF x) ∧
    ∃ t, exec (.ldF x) s = .next t ∧ t.i.toNat = (s.reg x).toNat * 5 + 0x050 ∧ ChangesOnly (· = .index) s t

/-- Fx33 LD B, Vx: hundreds, tens and ones to I, I + 1, I + 2, and no other byte; it faults before any write where one of them
is above 0xFFF (R183; D7, log 8). -/
def Obligations.LdBStoresDecimalDigits : Prop :=
  ∀ (x : Reg) (s : State), StandsFor (formXI 0xF x 0x33) (.ldB x) ∧
    (s.i.toNat + 2 ≤ 0xFFF → ∃ t, exec (.ldB x) s = .next t ∧
      (t.byteAt s.i.toNat).toNat = (s.reg x).toNat / 100 ∧
      (t.byteAt (s.i.toNat + 1)).toNat = (s.reg x).toNat / 10 % 10 ∧
      (t.byteAt (s.i.toNat + 2)).toNat = (s.reg x).toNat % 10 ∧
      ChangesOnly (fun p => p = .byte s.i.toNat ∨ p = .byte (s.i.toNat + 1) ∨ p = .byte (s.i.toNat + 2)) s t) ∧
    (0xFFF < s.i.toNat + 2 → exec (.ldB x) s = .next
        { s with
          pc := s.pc - 2
          status := .faulted ⟨.outOfBoundsAccess, s.pc - 2, some (formXI 0xF x 0x33), some (max s.i.toNat 0x1000)⟩ })

/-- Fx55 LD [I], Vx: Vr to I + r for every r up to x, and no other byte; I is unchanged; it faults before any write where one of
them is above 0xFFF (R184; D7, D14, log 8, log 13). -/
def Obligations.StoreRegsCopiesToMemory : Prop :=
  ∀ (x : Reg) (s : State), StandsFor (formXI 0xF x 0x55) (.storeRegs x) ∧
    (s.i.toNat + x.val ≤ 0xFFF → ∃ t, exec (.storeRegs x) s = .next t ∧
      (∀ r : Reg, r ≤ x → t.byteAt (s.i.toNat + r.val) = s.reg r) ∧
      ChangesOnly (fun p => ∃ r : Reg, r ≤ x ∧ p = .byte (s.i.toNat + r.val)) s t) ∧
    (0xFFF < s.i.toNat + x.val → exec (.storeRegs x) s = .next
        { s with
          pc := s.pc - 2
          status := .faulted ⟨.outOfBoundsAccess, s.pc - 2, some (formXI 0xF x 0x55), some (max s.i.toNat 0x1000)⟩ })

/-- Fx65 LD Vx, [I]: the byte at I + r to Vr for every r up to x, and no other register; I is unchanged; it faults before any
write where one of the bytes is above 0xFFF (R185; D7, D14, log 8, log 13). -/
def Obligations.LoadRegsCopiesFromMemory : Prop :=
  ∀ (x : Reg) (s : State), StandsFor (formXI 0xF x 0x65) (.loadRegs x) ∧
    (s.i.toNat + x.val ≤ 0xFFF → ∃ t, exec (.loadRegs x) s = .next t ∧
      (∀ r : Reg, r ≤ x → t.reg r = s.byteAt (s.i.toNat + r.val)) ∧
      ChangesOnly (fun p => ∃ r : Reg, r ≤ x ∧ p = .reg r) s t) ∧
    (0xFFF < s.i.toNat + x.val → exec (.loadRegs x) s = .next
        { s with
          pc := s.pc - 2
          status := .faulted ⟨.outOfBoundsAccess, s.pc - 2, some (formXI 0xF x 0x65), some (max s.i.toNat 0x1000)⟩ })

/-- Fx55, then any change of the register file, then Fx65 brings V0 to Vx back (R184, R185, R59; D14, log 13). -/
def Obligations.StoreThenLoadRestoresRegisters : Prop :=
  ∀ (x : Reg) (s : State) (v : Vector Byte 16), s.i.toNat + x.val ≤ 0xFFF →
    ∃ t u, exec (.storeRegs x) s = .next t ∧ exec (.loadRegs x) { t with v := v } = .next u ∧
      (∀ r : Reg, r ≤ x → u.reg r = s.reg r) ∧ ∀ r : Reg, x < r → u.reg r = v[r.val]

/-- A byte stored by Fx55 or Fx33 where the next instruction stands is what the very next step fetches, as its first byte, its
second byte or both (R61, R273; D23). -/
def Obligations.StoredCodeIsFetchedNext : Prop :=
  ∀ (x : Reg) (s : State), s.status = .running → s.pc.toNat ≤ 0xFFC →
    (decodeWord s.fetchedWord = .ok (.storeRegs x) → s.i.toNat + x.val ≤ 0xFFF →
      ∃ (t : State) (hi lo : Byte), step s = .next t ∧ t.status = .running ∧ t.pc = s.pc + 2 ∧ t.fetchedWord = hi ++ lo ∧
        (∀ r : Reg, r ≤ x → s.i.toNat + r.val = s.pc.toNat + 2 → hi = s.reg r) ∧
        (∀ r : Reg, r ≤ x → s.i.toNat + r.val = s.pc.toNat + 3 → lo = s.reg r)) ∧
    (decodeWord s.fetchedWord = .ok (.ldB x) → s.i.toNat + 2 ≤ 0xFFF →
      ∃ (t : State) (hi lo : Byte), step s = .next t ∧ t.status = .running ∧ t.pc = s.pc + 2 ∧ t.fetchedWord = hi ++ lo ∧
        ∀ d ∈ [(0, (s.reg x).toNat / 100), (1, (s.reg x).toNat / 10 % 10), (2, (s.reg x).toNat % 10)],
          (s.i.toNat + d.1 = s.pc.toNat + 2 → hi.toNat = d.2) ∧ (s.i.toNat + d.1 = s.pc.toNat + 3 → lo.toNat = d.2))

/-- A read returns the last value written there, and a write leaves every other address alone (20_memory.md R56). -/
def Obligations.ReadReturnsLastWrite : Prop :=
  ∀ (s : State) (a k : Nat) (b : Byte), a ≤ 0xFFF →
    (s.storeByte a b).byteAt k = if k = a then b else s.byteAt k

/-- Memories in canonical form that read alike at every address are the same list (the model's own form of memory, log 6). -/
def Obligations.CanonicalMemoriesThatReadAlikeAreEqual : Prop :=
  ∀ (font : Font) (m n : Memory), Memory.wf font m = true → Memory.wf font n = true →
    (∀ a, a ≤ 0xFFF → Memory.read font m a = Memory.read font n a) → m = n

/-! ## Keypad and timers -/

/-- Ex9E SKP and ExA1 SKNP: pc goes on by 2 exactly when the key numbered Vx is, respectively is not, pressed; a Vx above 0x0F
faults before anything changes (R200, R201, R202; D12, log 11). -/
def Obligations.SkipOnKey : Prop :=
  ∀ (x : Reg) (s : State), StandsFor (formXI 0xE x 0x9E) (.skp x) ∧ StandsFor (formXI 0xE x 0xA1) (.sknp x) ∧
    (∀ k : Key, k.val = (s.reg x).toNat →
      (∃ t, exec (.skp x) s = .next t ∧ t.pc = (if s.key k = true then s.pc + 2 else s.pc) ∧
        ChangesOnly (· = .pc) s t) ∧
      (∃ t, exec (.sknp x) s = .next t ∧ t.pc = (if s.key k = false then s.pc + 2 else s.pc) ∧
        ChangesOnly (· = .pc) s t)) ∧
    (0x0F < (s.reg x).toNat →
      exec (.skp x) s = .next
          { s with
            pc := s.pc - 2
            status := .faulted ⟨.keyIndexOutOfRange, s.pc - 2, some (formXI 0xE x 0x9E), some (s.reg x).toNat⟩ } ∧
      exec (.sknp x) s = .next
          { s with
            pc := s.pc - 2
            status := .faulted ⟨.keyIndexOutOfRange, s.pc - 2, some (formXI 0xE x 0xA1), some (s.reg x).toNat⟩ })

/-- Fx07 LD Vx, DT: the value before the tick, which then takes one from DT (R203). -/
def Obligations.LdVxDtReadsDelay : Prop :=
  ∀ (x : Reg) (s : State), StandsFor (formXI 0xF x 0x07) (.ldVxDt x) ∧
    ∃ t, exec (.ldVxDt x) s = .next t ∧ t.reg x = s.dt ∧ t.tick.dt.toNat = s.dt.toNat - 1 ∧
      ChangesOnly (· = .reg x) s t

/-- Fx0A LD Vx, K: with a key pressed Vx is the number of the lowest pressed key; with none pc goes back to the instruction and
nothing else changes (R204; D17, log 16). -/
def Obligations.LdVxKTakesLowestKeyOrWaits : Prop :=
  ∀ (x : Reg) (s : State), StandsFor (formXI 0xF x 0x0A) (.ldVxK x) ∧
    (∀ k : Key, s.key k = true → (∀ j : Key, j < k → s.key j = false) → ∃ t, exec (.ldVxK x) s = .next t ∧
      (t.reg x).toNat = k.val ∧ ChangesOnly (· = .reg x) s t) ∧
    ((∀ k : Key, s.key k = false) → ∃ t, exec (.ldVxK x) s = .next t ∧ t.pc = s.pc - 2 ∧ ChangesOnly (· = .pc) s t)

/-- Fx15 LD DT, Vx and Fx18 LD ST, Vx: the timer takes Vx, and the tick of the same step leaves one less, or 0 (R205, R206). -/
def Obligations.TimerLoads : Prop :=
  ∀ (x : Reg) (s : State), StandsFor (formXI 0xF x 0x15) (.ldDtVx x) ∧ StandsFor (formXI 0xF x 0x18) (.ldStVx x) ∧
    (∃ t, exec (.ldDtVx x) s = .next t ∧ t.dt = s.reg x ∧ t.tick.dt.toNat = (s.reg x).toNat - 1 ∧
      ChangesOnly (· = .delay) s t) ∧
    (∃ t, exec (.ldStVx x) s = .next t ∧ t.st = s.reg x ∧ t.tick.st.toNat = (s.reg x).toNat - 1 ∧
      ChangesOnly (· = .sound) s t)

/-! ## Reset, loader, host interface -/

/-- The state after construction, part by part, for every FONT and policy (70_reset_and_hazards.md R261, R262, derived by the
spec from R260). -/
def Obligations.ConstructionState : Prop :=
  ∀ (p : Params) (s : State), s = State.construct p →
    (∀ r, s.reg r = 0) ∧ s.i = 0 ∧ s.pc = 0x200 ∧ s.sp.val = 0 ∧ (∀ j, s.slot j = 0) ∧ s.dt = 0 ∧ s.st = 0 ∧
    (∀ k, s.key k = false) ∧ (∀ c r, s.cell c r = false) ∧
    (∀ (g : Fin 16) (r : Fin 5), s.byteAt (0x050 + 5 * g.val + r.val) = (p.font[g.val])[r.val]) ∧
    (∀ a, a < 0x050 ∨ 0x0A0 ≤ a → s.byteAt a = 0) ∧ s.status = .running

/-- Loading a program: an image of at most 3584 bytes stands at 0x200 upward and nothing else changes; a longer one is refused
and nothing is written (R264; D19, log 18). -/
def Obligations.LoadProgramCopiesImage : Prop :=
  ∀ (s : State) (image : List Byte),
    (image.length ≤ 3584 → ∃ t, s.loadProgram image = .ok t ∧ s.transact (.load image) = (t, .done) ∧
      (∀ (k : Nat) (h : k < image.length), t.byteAt (0x200 + k) = image[k]) ∧
      ChangesOnly (fun p => ∃ k, k < image.length ∧ p = .byte (0x200 + k)) s t) ∧
    (3584 < image.length → s.loadProgram image = .error .programTooLarge ∧
      s.transact (.load image) = (s, .loadFailed .programTooLarge))

/-- Boot: after construction and a load the first step runs the first two bytes of the image, big-endian; an image of one byte
supplies the word b ++ 0x00; with none the first step raises IllegalInstruction (R266, derived by the spec; log 18). -/
def Obligations.BootRunsFirstImageWord : Prop :=
  ∀ p : Params,
    (∀ (b0 b1 : Byte) (rest : List Byte) (t : State) (i : Instr),
      (State.construct p).loadProgram (b0 :: b1 :: rest) = .ok t → decodeWord (b0 ++ b1) = .ok i →
      step t = completeStep (exec i (t.setPc 0x202))) ∧
    (∀ (b : Byte) (t : State), (State.construct p).loadProgram [b] = .ok t → t.fetchedWord = b ++ 0x00#8) ∧
    step (State.construct p) = .next { State.construct p with
      status := .faulted ⟨.illegalInstruction, 0x200, some 0x0000, some 0x0000⟩ }

/-- The host's other moves: setting a key changes that slot alone, reading changes nothing and answers the display or the state
(60_exceptions.md R240, R232, R233; D1, log 23). -/
def Obligations.HostMovesChangeOnlyTheirPart : Prop :=
  ∀ (s : State) (k : Key) (pressed : Bool),
    ((s.transact (.setKey k pressed)).1.key k = pressed ∧
      ChangesOnly (· = .key k) s (s.transact (.setKey k pressed)).1) ∧
    s.transact .readDisplay = (s, .display s.disp) ∧ s.transact .readState = (s, .contents s)

/-- The step's input byte is consumed only by an executed Cxnn: a step request gives one result for every byte unless the block
is Running and the word it fetches from within memory is a Cxnn (R90, R163, R99; D2, D7, log 1, log 5, log 8). -/
def Obligations.RandomByteIsReadOnlyByRnd : Prop :=
  ∀ (s : State) (a b : Byte),
    (s.status = .running → s.pc.toNat ≤ 0xFFE → ∀ x nn, decodeWord s.fetchedWord ≠ .ok (.rnd x nn)) →
    s.stepWith a = s.stepWith b
end

