-- ==== Sys2Proof/Laws/Decode.lean ====
section
/-! SUPPORT. The fields of an encoded word are the operands it was made from, and every word is made from its own fields. -/

namespace Sys2Proof

/-! ## Fields of the forms -/

theorem regBits_toNat (x : Reg) : (regBits x).toNat = x.val := by
  simp [regBits]

variable (op : BitVec 4) (x y : Reg) (n : BitVec 4) (nn : Byte) (nnn : BitVec 12)

/-- The high bits of a concatenation. -/
theorem extractLsb'_append_high {v w : Nat} (a : BitVec v) (b : BitVec w) :
    (a ++ b).extractLsb' w v = a := by
  apply BitVec.eq_of_getLsbD_eq
  intro i hi
  simp only [BitVec.getLsbD_extractLsb', BitVec.getLsbD_append, hi, decide_true, Bool.true_and]
  rw [if_neg (by omega)]
  congr 1
  omega

/-- A field inside the low part of a concatenation. -/
theorem extractLsb'_append_low {v w : Nat} (a : BitVec v) (b : BitVec w) (start len : Nat) (h : start + len ≤ w) :
    (a ++ b).extractLsb' start len = b.extractLsb' start len := by
  apply BitVec.eq_of_getLsbD_eq
  intro i hi
  simp only [BitVec.getLsbD_extractLsb', BitVec.getLsbD_append, hi, decide_true, Bool.true_and]
  rw [if_pos (by omega)]

/-- A field inside the high part of a concatenation. -/
theorem extractLsb'_append_mid {v w : Nat} (a : BitVec v) (b : BitVec w) (start len : Nat) (h : w ≤ start) :
    (a ++ b).extractLsb' start len = a.extractLsb' (start - w) len := by
  apply BitVec.eq_of_getLsbD_eq
  intro i hi
  simp only [BitVec.getLsbD_extractLsb', BitVec.getLsbD_append, hi, decide_true, Bool.true_and]
  rw [if_neg (by omega)]
  congr 1
  omega

/-- The whole of a vector as a field of it. -/
theorem extractLsb'_all {w : Nat} (a : BitVec w) : a.extractLsb' 0 w = a := by
  apply BitVec.eq_of_getLsbD_eq
  intro i hi
  simp [hi]

@[simp] theorem opField_formA : opField (formA op nnn) = op := extractLsb'_append_high op nnn

@[simp] theorem nnnField_formA : nnnField (formA op nnn) = nnn := by
  unfold nnnField formA
  rw [extractLsb'_append_low _ _ _ _ (by omega), extractLsb'_all]

@[simp] theorem opField_formXI : opField (formXI op x nn) = op := by
  unfold opField formXI
  rw [extractLsb'_append_mid _ _ _ _ (by omega), extractLsb'_append_high]

@[simp] theorem nnField_formXI : nnField (formXI op x nn) = nn := by
  unfold nnField formXI
  rw [extractLsb'_append_low _ _ _ _ (by omega), extractLsb'_all]

@[simp] theorem xField_formXI : xField (formXI op x nn) = x := by
  have h : (formXI op x nn).extractLsb' 8 4 = regBits x := by
    unfold formXI
    rw [extractLsb'_append_mid _ _ _ _ (by omega), extractLsb'_append_low _ _ _ _ (by omega)]
    exact extractLsb'_all _
  apply Fin.ext
  simp [xField, h, regBits_toNat]

@[simp] theorem opField_formXY : opField (formXY op x y n) = op := by
  unfold opField formXY
  rw [extractLsb'_append_mid _ _ _ _ (by omega), extractLsb'_append_mid _ _ _ _ (by omega), extractLsb'_append_high]

@[simp] theorem nField_formXY : nField (formXY op x y n) = n := by
  unfold nField formXY
  rw [extractLsb'_append_low _ _ _ _ (by omega), extractLsb'_all]

@[simp] theorem xField_formXY : xField (formXY op x y n) = x := by
  have h : (formXY op x y n).extractLsb' 8 4 = regBits x := by
    unfold formXY
    rw [extractLsb'_append_mid _ _ _ _ (by omega), extractLsb'_append_mid _ _ _ _ (by omega),
      extractLsb'_append_low _ _ _ _ (by omega)]
    exact extractLsb'_all _
  apply Fin.ext
  simp [xField, h, regBits_toNat]

@[simp] theorem yField_formXY : yField (formXY op x y n) = y := by
  have h : (formXY op x y n).extractLsb' 4 4 = regBits y := by
    unfold formXY
    rw [extractLsb'_append_mid _ _ _ _ (by omega), extractLsb'_append_low _ _ _ _ (by omega)]
    exact extractLsb'_all _
  apply Fin.ext
  simp [yField, h, regBits_toNat]

/-! ## Every word is made from its fields -/

variable (w : Word)

theorem regBits_xField : regBits (xField w) = w.extractLsb' 8 4 := by
  apply BitVec.eq_of_toNat_eq
  rw [regBits_toNat]
  rfl

theorem regBits_yField : regBits (yField w) = w.extractLsb' 4 4 := by
  apply BitVec.eq_of_toNat_eq
  rw [regBits_toNat]
  rfl

/-- A field cut in two. -/
theorem extractLsb'_split {v : Nat} (a : BitVec v) (start high low : Nat) :
    a.extractLsb' (start + low) high ++ a.extractLsb' start low = a.extractLsb' start (high + low) := by
  apply BitVec.eq_of_getLsbD_eq
  intro i hi
  simp only [BitVec.getLsbD_extractLsb', BitVec.getLsbD_append]
  split
  · next h => simp [h]; omega
  · next h =>
    have h1 : i - low < high := by omega
    have h2 : start + low + (i - low) = start + i := by omega
    simp [h1, h2]; omega

theorem formA_fields : formA (opField w) (nnnField w) = w := by
  unfold formA opField nnnField
  rw [show w.extractLsb' 12 4 = w.extractLsb' (0 + 12) 4 from rfl, extractLsb'_split w 0 4 12]
  exact extractLsb'_all w

theorem formXI_fields : formXI (opField w) (xField w) (nnField w) = w := by
  unfold formXI opField nnField
  rw [regBits_xField, show w.extractLsb' 12 4 = w.extractLsb' (8 + 4) 4 from rfl, extractLsb'_split w 8 4 4,
    show w.extractLsb' 8 (4 + 4) = w.extractLsb' (0 + 8) 8 from rfl, extractLsb'_split w 0 8 8]
  exact extractLsb'_all w

theorem formXY_fields : formXY (opField w) (xField w) (yField w) (nField w) = w := by
  unfold formXY opField nField
  rw [regBits_xField, regBits_yField, show w.extractLsb' 12 4 = w.extractLsb' (8 + 4) 4 from rfl,
    extractLsb'_split w 8 4 4, show w.extractLsb' 8 (4 + 4) = w.extractLsb' (4 + 4) 8 from rfl,
    extractLsb'_split w 4 8 4, show w.extractLsb' 4 (8 + 4) = w.extractLsb' (0 + 4) 12 from rfl,
    extractLsb'_split w 0 12 4]
  exact extractLsb'_all w

/-! ## What each family's decoder can answer -/

theorem decodeFamily0_ok {nnn : BitVec 12} {i : Instr} (h : decodeFamily0 nnn = .ok i) :
    i.wellFormed = true ∧ encode i = formA 0x0 nnn := by
  unfold decodeFamily0 at h
  split_ifs at h <;> cases h <;> subst_vars <;> exact ⟨rfl, rfl⟩

theorem decodeFamily8_ok {x y : Reg} {n : BitVec 4} {i : Instr} (h : decodeFamily8 x y n = .ok i) :
    i.wellFormed = true ∧ encode i = formXY 0x8 x y n := by
  unfold decodeFamily8 at h
  split_ifs at h <;> cases h <;> subst_vars <;> exact ⟨rfl, rfl⟩

theorem decodeFamilyE_ok {x : Reg} {nn : Byte} {i : Instr} (h : decodeFamilyE x nn = .ok i) :
    i.wellFormed = true ∧ encode i = formXI 0xE x nn := by
  unfold decodeFamilyE at h
  split_ifs at h <;> cases h <;> subst_vars <;> exact ⟨rfl, rfl⟩

theorem decodeFamilyF_ok {x : Reg} {nn : Byte} {i : Instr} (h : decodeFamilyF x nn = .ok i) :
    i.wellFormed = true ∧ encode i = formXI 0xF x nn := by
  unfold decodeFamilyF at h
  split_ifs at h <;> cases h <;> subst_vars <;> exact ⟨rfl, rfl⟩

/-- The sixteen opcode families. -/
theorem opField_cases : opField w = 0x0 ∨ opField w = 0x1 ∨ opField w = 0x2 ∨ opField w = 0x3 ∨ opField w = 0x4 ∨
    opField w = 0x5 ∨ opField w = 0x6 ∨ opField w = 0x7 ∨ opField w = 0x8 ∨ opField w = 0x9 ∨ opField w = 0xA ∨
    opField w = 0xB ∨ opField w = 0xC ∨ opField w = 0xD ∨ opField w = 0xE ∨ opField w = 0xF := by
  generalize opField w = op
  bv_omega

/-- The two bytes of a word make it again (R52). -/
theorem wordOfBytes_bytes : wordOfBytes (w.extractLsb' 8 8) (w.extractLsb' 0 8) = w := by
  unfold wordOfBytes
  rw [show w.extractLsb' 8 8 = w.extractLsb' (0 + 8) 8 from rfl, extractLsb'_split w 0 8 8]
  exact extractLsb'_all w

end Sys2Proof
end

