-- ==== Sys2Proof/Laws/State.lean ====
section
/-! SUPPORT. One lemma per field per update of State, true by rfl, so that no proof unfolds a record update. -/

namespace Sys2Proof.Machine

variable (s : State)

/-! `State.setReg` -/

@[simp] theorem State.setReg_v (r : Reg) (b : Byte) : (s.setReg r b).v = s.v.set r.val b := rfl
@[simp] theorem State.setReg_i (r : Reg) (b : Byte) : (s.setReg r b).i = s.i := rfl
@[simp] theorem State.setReg_pc (r : Reg) (b : Byte) : (s.setReg r b).pc = s.pc := rfl
@[simp] theorem State.setReg_sp (r : Reg) (b : Byte) : (s.setReg r b).sp = s.sp := rfl
@[simp] theorem State.setReg_stack (r : Reg) (b : Byte) : (s.setReg r b).stack = s.stack := rfl
@[simp] theorem State.setReg_dt (r : Reg) (b : Byte) : (s.setReg r b).dt = s.dt := rfl
@[simp] theorem State.setReg_st (r : Reg) (b : Byte) : (s.setReg r b).st = s.st := rfl
@[simp] theorem State.setReg_keys (r : Reg) (b : Byte) : (s.setReg r b).keys = s.keys := rfl
@[simp] theorem State.setReg_disp (r : Reg) (b : Byte) : (s.setReg r b).disp = s.disp := rfl
@[simp] theorem State.setReg_mem (r : Reg) (b : Byte) : (s.setReg r b).mem = s.mem := rfl
@[simp] theorem State.setReg_status (r : Reg) (b : Byte) : (s.setReg r b).status = s.status := rfl
@[simp] theorem State.setReg_params (r : Reg) (b : Byte) : (s.setReg r b).params = s.params := rfl
@[simp] theorem State.setReg_random (r : Reg) (b : Byte) : (s.setReg r b).random = s.random := rfl

/-! `State.setI` -/

@[simp] theorem State.setI_v (a : Word) : (s.setI a).v = s.v := rfl
@[simp] theorem State.setI_i (a : Word) : (s.setI a).i = a := rfl
@[simp] theorem State.setI_pc (a : Word) : (s.setI a).pc = s.pc := rfl
@[simp] theorem State.setI_sp (a : Word) : (s.setI a).sp = s.sp := rfl
@[simp] theorem State.setI_stack (a : Word) : (s.setI a).stack = s.stack := rfl
@[simp] theorem State.setI_dt (a : Word) : (s.setI a).dt = s.dt := rfl
@[simp] theorem State.setI_st (a : Word) : (s.setI a).st = s.st := rfl
@[simp] theorem State.setI_keys (a : Word) : (s.setI a).keys = s.keys := rfl
@[simp] theorem State.setI_disp (a : Word) : (s.setI a).disp = s.disp := rfl
@[simp] theorem State.setI_mem (a : Word) : (s.setI a).mem = s.mem := rfl
@[simp] theorem State.setI_status (a : Word) : (s.setI a).status = s.status := rfl
@[simp] theorem State.setI_params (a : Word) : (s.setI a).params = s.params := rfl
@[simp] theorem State.setI_random (a : Word) : (s.setI a).random = s.random := rfl

/-! `State.setPc` -/

@[simp] theorem State.setPc_v (a : Word) : (s.setPc a).v = s.v := rfl
@[simp] theorem State.setPc_i (a : Word) : (s.setPc a).i = s.i := rfl
@[simp] theorem State.setPc_pc (a : Word) : (s.setPc a).pc = a := rfl
@[simp] theorem State.setPc_sp (a : Word) : (s.setPc a).sp = s.sp := rfl
@[simp] theorem State.setPc_stack (a : Word) : (s.setPc a).stack = s.stack := rfl
@[simp] theorem State.setPc_dt (a : Word) : (s.setPc a).dt = s.dt := rfl
@[simp] theorem State.setPc_st (a : Word) : (s.setPc a).st = s.st := rfl
@[simp] theorem State.setPc_keys (a : Word) : (s.setPc a).keys = s.keys := rfl
@[simp] theorem State.setPc_disp (a : Word) : (s.setPc a).disp = s.disp := rfl
@[simp] theorem State.setPc_mem (a : Word) : (s.setPc a).mem = s.mem := rfl
@[simp] theorem State.setPc_status (a : Word) : (s.setPc a).status = s.status := rfl
@[simp] theorem State.setPc_params (a : Word) : (s.setPc a).params = s.params := rfl
@[simp] theorem State.setPc_random (a : Word) : (s.setPc a).random = s.random := rfl

/-! `State.setDt` -/

@[simp] theorem State.setDt_v (b : Byte) : (s.setDt b).v = s.v := rfl
@[simp] theorem State.setDt_i (b : Byte) : (s.setDt b).i = s.i := rfl
@[simp] theorem State.setDt_pc (b : Byte) : (s.setDt b).pc = s.pc := rfl
@[simp] theorem State.setDt_sp (b : Byte) : (s.setDt b).sp = s.sp := rfl
@[simp] theorem State.setDt_stack (b : Byte) : (s.setDt b).stack = s.stack := rfl
@[simp] theorem State.setDt_dt (b : Byte) : (s.setDt b).dt = b := rfl
@[simp] theorem State.setDt_st (b : Byte) : (s.setDt b).st = s.st := rfl
@[simp] theorem State.setDt_keys (b : Byte) : (s.setDt b).keys = s.keys := rfl
@[simp] theorem State.setDt_disp (b : Byte) : (s.setDt b).disp = s.disp := rfl
@[simp] theorem State.setDt_mem (b : Byte) : (s.setDt b).mem = s.mem := rfl
@[simp] theorem State.setDt_status (b : Byte) : (s.setDt b).status = s.status := rfl
@[simp] theorem State.setDt_params (b : Byte) : (s.setDt b).params = s.params := rfl
@[simp] theorem State.setDt_random (b : Byte) : (s.setDt b).random = s.random := rfl

/-! `State.setSt` -/

@[simp] theorem State.setSt_v (b : Byte) : (s.setSt b).v = s.v := rfl
@[simp] theorem State.setSt_i (b : Byte) : (s.setSt b).i = s.i := rfl
@[simp] theorem State.setSt_pc (b : Byte) : (s.setSt b).pc = s.pc := rfl
@[simp] theorem State.setSt_sp (b : Byte) : (s.setSt b).sp = s.sp := rfl
@[simp] theorem State.setSt_stack (b : Byte) : (s.setSt b).stack = s.stack := rfl
@[simp] theorem State.setSt_dt (b : Byte) : (s.setSt b).dt = s.dt := rfl
@[simp] theorem State.setSt_st (b : Byte) : (s.setSt b).st = b := rfl
@[simp] theorem State.setSt_keys (b : Byte) : (s.setSt b).keys = s.keys := rfl
@[simp] theorem State.setSt_disp (b : Byte) : (s.setSt b).disp = s.disp := rfl
@[simp] theorem State.setSt_mem (b : Byte) : (s.setSt b).mem = s.mem := rfl
@[simp] theorem State.setSt_status (b : Byte) : (s.setSt b).status = s.status := rfl
@[simp] theorem State.setSt_params (b : Byte) : (s.setSt b).params = s.params := rfl
@[simp] theorem State.setSt_random (b : Byte) : (s.setSt b).random = s.random := rfl

/-! `State.setDisp` -/

@[simp] theorem State.setDisp_v (d : Display) : (s.setDisp d).v = s.v := rfl
@[simp] theorem State.setDisp_i (d : Display) : (s.setDisp d).i = s.i := rfl
@[simp] theorem State.setDisp_pc (d : Display) : (s.setDisp d).pc = s.pc := rfl
@[simp] theorem State.setDisp_sp (d : Display) : (s.setDisp d).sp = s.sp := rfl
@[simp] theorem State.setDisp_stack (d : Display) : (s.setDisp d).stack = s.stack := rfl
@[simp] theorem State.setDisp_dt (d : Display) : (s.setDisp d).dt = s.dt := rfl
@[simp] theorem State.setDisp_st (d : Display) : (s.setDisp d).st = s.st := rfl
@[simp] theorem State.setDisp_keys (d : Display) : (s.setDisp d).keys = s.keys := rfl
@[simp] theorem State.setDisp_disp (d : Display) : (s.setDisp d).disp = d := rfl
@[simp] theorem State.setDisp_mem (d : Display) : (s.setDisp d).mem = s.mem := rfl
@[simp] theorem State.setDisp_status (d : Display) : (s.setDisp d).status = s.status := rfl
@[simp] theorem State.setDisp_params (d : Display) : (s.setDisp d).params = s.params := rfl
@[simp] theorem State.setDisp_random (d : Display) : (s.setDisp d).random = s.random := rfl

/-! `State.storeByte` -/

@[simp] theorem State.storeByte_v (a : Nat) (b : Byte) : (s.storeByte a b).v = s.v := rfl
@[simp] theorem State.storeByte_i (a : Nat) (b : Byte) : (s.storeByte a b).i = s.i := rfl
@[simp] theorem State.storeByte_pc (a : Nat) (b : Byte) : (s.storeByte a b).pc = s.pc := rfl
@[simp] theorem State.storeByte_sp (a : Nat) (b : Byte) : (s.storeByte a b).sp = s.sp := rfl
@[simp] theorem State.storeByte_stack (a : Nat) (b : Byte) : (s.storeByte a b).stack = s.stack := rfl
@[simp] theorem State.storeByte_dt (a : Nat) (b : Byte) : (s.storeByte a b).dt = s.dt := rfl
@[simp] theorem State.storeByte_st (a : Nat) (b : Byte) : (s.storeByte a b).st = s.st := rfl
@[simp] theorem State.storeByte_keys (a : Nat) (b : Byte) : (s.storeByte a b).keys = s.keys := rfl
@[simp] theorem State.storeByte_disp (a : Nat) (b : Byte) : (s.storeByte a b).disp = s.disp := rfl
@[simp] theorem State.storeByte_mem (a : Nat) (b : Byte) : (s.storeByte a b).mem = Memory.write s.params.font s.mem a b := rfl
@[simp] theorem State.storeByte_status (a : Nat) (b : Byte) : (s.storeByte a b).status = s.status := rfl
@[simp] theorem State.storeByte_params (a : Nat) (b : Byte) : (s.storeByte a b).params = s.params := rfl
@[simp] theorem State.storeByte_random (a : Nat) (b : Byte) : (s.storeByte a b).random = s.random := rfl

/-! `State.tick` -/

@[simp] theorem State.tick_v : s.tick.v = s.v := rfl
@[simp] theorem State.tick_i : s.tick.i = s.i := rfl
@[simp] theorem State.tick_pc : s.tick.pc = s.pc := rfl
@[simp] theorem State.tick_sp : s.tick.sp = s.sp := rfl
@[simp] theorem State.tick_stack : s.tick.stack = s.stack := rfl
@[simp] theorem State.tick_dt : s.tick.dt = tickTimer s.dt := rfl
@[simp] theorem State.tick_st : s.tick.st = tickTimer s.st := rfl
@[simp] theorem State.tick_keys : s.tick.keys = s.keys := rfl
@[simp] theorem State.tick_disp : s.tick.disp = s.disp := rfl
@[simp] theorem State.tick_mem : s.tick.mem = s.mem := rfl
@[simp] theorem State.tick_status : s.tick.status = s.status := rfl
@[simp] theorem State.tick_params : s.tick.params = s.params := rfl
@[simp] theorem State.tick_random : s.tick.random = s.random := rfl

/-! `State.drawRandom` -/

@[simp] theorem State.drawRandom_v : s.drawRandom.v = s.v := rfl
@[simp] theorem State.drawRandom_i : s.drawRandom.i = s.i := rfl
@[simp] theorem State.drawRandom_pc : s.drawRandom.pc = s.pc := rfl
@[simp] theorem State.drawRandom_sp : s.drawRandom.sp = s.sp := rfl
@[simp] theorem State.drawRandom_stack : s.drawRandom.stack = s.stack := rfl
@[simp] theorem State.drawRandom_dt : s.drawRandom.dt = s.dt := rfl
@[simp] theorem State.drawRandom_st : s.drawRandom.st = s.st := rfl
@[simp] theorem State.drawRandom_keys : s.drawRandom.keys = s.keys := rfl
@[simp] theorem State.drawRandom_disp : s.drawRandom.disp = s.disp := rfl
@[simp] theorem State.drawRandom_mem : s.drawRandom.mem = s.mem := rfl
@[simp] theorem State.drawRandom_status : s.drawRandom.status = s.status := rfl
@[simp] theorem State.drawRandom_params : s.drawRandom.params = s.params := rfl
@[simp] theorem State.drawRandom_random : s.drawRandom.random = ⟨s.random.script.tail, s.random.drawn + 1⟩ := rfl

/-! `State.supplyRandom` -/

@[simp] theorem State.supplyRandom_v (l : List Byte) : (s.supplyRandom l).v = s.v := rfl
@[simp] theorem State.supplyRandom_i (l : List Byte) : (s.supplyRandom l).i = s.i := rfl
@[simp] theorem State.supplyRandom_pc (l : List Byte) : (s.supplyRandom l).pc = s.pc := rfl
@[simp] theorem State.supplyRandom_sp (l : List Byte) : (s.supplyRandom l).sp = s.sp := rfl
@[simp] theorem State.supplyRandom_stack (l : List Byte) : (s.supplyRandom l).stack = s.stack := rfl
@[simp] theorem State.supplyRandom_dt (l : List Byte) : (s.supplyRandom l).dt = s.dt := rfl
@[simp] theorem State.supplyRandom_st (l : List Byte) : (s.supplyRandom l).st = s.st := rfl
@[simp] theorem State.supplyRandom_keys (l : List Byte) : (s.supplyRandom l).keys = s.keys := rfl
@[simp] theorem State.supplyRandom_disp (l : List Byte) : (s.supplyRandom l).disp = s.disp := rfl
@[simp] theorem State.supplyRandom_mem (l : List Byte) : (s.supplyRandom l).mem = s.mem := rfl
@[simp] theorem State.supplyRandom_status (l : List Byte) : (s.supplyRandom l).status = s.status := rfl
@[simp] theorem State.supplyRandom_params (l : List Byte) : (s.supplyRandom l).params = s.params := rfl
@[simp] theorem State.supplyRandom_random (l : List Byte) : (s.supplyRandom l).random = ⟨l, s.random.drawn⟩ := rfl

/-! `State.takeFault` -/

@[simp] theorem State.takeFault_v (c : FaultCause) (a : Word) (w : Option Word) (n : Option Nat) : (s.takeFault c a w n).v = s.v := rfl
@[simp] theorem State.takeFault_i (c : FaultCause) (a : Word) (w : Option Word) (n : Option Nat) : (s.takeFault c a w n).i = s.i := rfl
@[simp] theorem State.takeFault_pc (c : FaultCause) (a : Word) (w : Option Word) (n : Option Nat) : (s.takeFault c a w n).pc = a := rfl
@[simp] theorem State.takeFault_sp (c : FaultCause) (a : Word) (w : Option Word) (n : Option Nat) : (s.takeFault c a w n).sp = s.sp := rfl
@[simp] theorem State.takeFault_stack (c : FaultCause) (a : Word) (w : Option Word) (n : Option Nat) : (s.takeFault c a w n).stack = s.stack := rfl
@[simp] theorem State.takeFault_dt (c : FaultCause) (a : Word) (w : Option Word) (n : Option Nat) : (s.takeFault c a w n).dt = s.dt := rfl
@[simp] theorem State.takeFault_st (c : FaultCause) (a : Word) (w : Option Word) (n : Option Nat) : (s.takeFault c a w n).st = s.st := rfl
@[simp] theorem State.takeFault_keys (c : FaultCause) (a : Word) (w : Option Word) (n : Option Nat) : (s.takeFault c a w n).keys = s.keys := rfl
@[simp] theorem State.takeFault_disp (c : FaultCause) (a : Word) (w : Option Word) (n : Option Nat) : (s.takeFault c a w n).disp = s.disp := rfl
@[simp] theorem State.takeFault_mem (c : FaultCause) (a : Word) (w : Option Word) (n : Option Nat) : (s.takeFault c a w n).mem = s.mem := rfl
@[simp] theorem State.takeFault_status (c : FaultCause) (a : Word) (w : Option Word) (n : Option Nat) : (s.takeFault c a w n).status = .faulted ⟨c, a, w, n⟩ := rfl
@[simp] theorem State.takeFault_params (c : FaultCause) (a : Word) (w : Option Word) (n : Option Nat) : (s.takeFault c a w n).params = s.params := rfl
@[simp] theorem State.takeFault_random (c : FaultCause) (a : Word) (w : Option Word) (n : Option Nat) : (s.takeFault c a w n).random = s.random := rfl

/-! `State.setKey` -/

@[simp] theorem State.setKey_v (k : Key) (b : Bool) : (s.setKey k b).v = s.v := rfl
@[simp] theorem State.setKey_i (k : Key) (b : Bool) : (s.setKey k b).i = s.i := rfl
@[simp] theorem State.setKey_pc (k : Key) (b : Bool) : (s.setKey k b).pc = s.pc := rfl
@[simp] theorem State.setKey_sp (k : Key) (b : Bool) : (s.setKey k b).sp = s.sp := rfl
@[simp] theorem State.setKey_stack (k : Key) (b : Bool) : (s.setKey k b).stack = s.stack := rfl
@[simp] theorem State.setKey_dt (k : Key) (b : Bool) : (s.setKey k b).dt = s.dt := rfl
@[simp] theorem State.setKey_st (k : Key) (b : Bool) : (s.setKey k b).st = s.st := rfl
@[simp] theorem State.setKey_keys (k : Key) (b : Bool) : (s.setKey k b).keys = s.keys.set k.val b := rfl
@[simp] theorem State.setKey_disp (k : Key) (b : Bool) : (s.setKey k b).disp = s.disp := rfl
@[simp] theorem State.setKey_mem (k : Key) (b : Bool) : (s.setKey k b).mem = s.mem := rfl
@[simp] theorem State.setKey_status (k : Key) (b : Bool) : (s.setKey k b).status = s.status := rfl
@[simp] theorem State.setKey_params (k : Key) (b : Bool) : (s.setKey k b).params = s.params := rfl
@[simp] theorem State.setKey_random (k : Key) (b : Bool) : (s.setKey k b).random = s.random := rfl

/-! Updates that are another update. -/

@[simp] theorem State.advance_eq : s.advance = s.setPc (s.pc + 2) := rfl
@[simp] theorem State.rewind_eq : s.rewind = s.setPc (s.pc - 2) := rfl
@[simp] theorem State.skipIf_eq (c : Bool) : s.skipIf c = s.setPc (if c then s.pc + 2 else s.pc) := by
  cases c <;> rfl
@[simp] theorem State.setResultThenFlag_eq (x : Reg) (a b : Byte) :
    s.setResultThenFlag x a b = (s.setReg x a).setReg vF b := rfl
@[simp] theorem State.setFlagThenResult_eq (x : Reg) (a b : Byte) :
    s.setFlagThenResult x a b = (s.setReg vF b).setReg x a := rfl

/-! The state after construction. -/

variable (p : Params)

@[simp] theorem State.construct_v : (State.construct p).v = Vector.replicate 16 0 := rfl
@[simp] theorem State.construct_i : (State.construct p).i = 0 := rfl
@[simp] theorem State.construct_pc : (State.construct p).pc = 0x200 := rfl
@[simp] theorem State.construct_sp : (State.construct p).sp = 0 := rfl
@[simp] theorem State.construct_stack : (State.construct p).stack = Vector.replicate 16 0 := rfl
@[simp] theorem State.construct_dt : (State.construct p).dt = 0 := rfl
@[simp] theorem State.construct_st : (State.construct p).st = 0 := rfl
@[simp] theorem State.construct_keys : (State.construct p).keys = Vector.replicate 16 false := rfl
@[simp] theorem State.construct_disp : (State.construct p).disp = Display.blank := rfl
@[simp] theorem State.construct_mem : (State.construct p).mem = [] := rfl
@[simp] theorem State.construct_status : (State.construct p).status = .running := rfl
@[simp] theorem State.construct_params : (State.construct p).params = p := rfl
@[simp] theorem State.construct_random : (State.construct p).random = ⟨[], 0⟩ := rfl

end Sys2Proof.Machine
end

