-- ==== Sys2Proof/Laws/Memory.lean ====
section
/-! SUPPORT. The laws of memory: a read after a write, and that every memory operation keeps the canonical form. -/

namespace Sys2Proof.Machine

variable {font : Font} {m : Memory} {a k lo : Nat} {b : Byte}

/-! ## Read after write -/

theorem Memory.find_put : ∀ (m : Memory) (a k : Nat) (b : Byte),
    Memory.find (Memory.put m a b) k = if a = k then some b else Memory.find m k
  | [], a, k, b => by simp [Memory.put, Memory.find]
  | (j, c) :: m, a, k, b => by
    have ih := Memory.find_put m a k b
    rcases Nat.lt_trichotomy a j with h | rfl | h
    · simp [Memory.put, Memory.find, h]
    · by_cases hk : a = k <;> simp [Memory.put, Memory.find, hk]
    · have h1 : ¬ a < j := by omega
      have h2 : ¬ a = j := by omega
      rw [Memory.put, if_neg h1, if_neg h2, Memory.find, ih, Memory.find]
      by_cases hk : j = k
      · have : ¬ a = k := by omega
        simp [hk, this]
      · simp [hk]

theorem Memory.find_drop : ∀ (m : Memory) (a k : Nat),
    Memory.find (Memory.drop m a) k = if a = k then none else Memory.find m k
  | [], a, k => by simp [Memory.drop, Memory.find]
  | (j, c) :: m, a, k => by
    have ih := Memory.find_drop m a k
    by_cases h : j = a
    · subst h
      rw [Memory.drop, if_pos rfl, ih, Memory.find]
      by_cases hk : j = k <;> simp [hk]
    · rw [Memory.drop, if_neg h, Memory.find, ih, Memory.find]
      by_cases hk : j = k
      · have : ¬ a = k := by omega
        simp [hk, this]
      · simp [hk]

/-- A read after a write of one byte: the written byte at its own address, every other address alone; an address above 0xFFF
takes nothing (R51, R56). -/
theorem Memory.read_write (font : Font) (m : Memory) (a k : Nat) (b : Byte) :
    Memory.read font (Memory.write font m a b) k =
      if a = k ∧ a < Config.memSize then b else Memory.read font m k := by
  unfold Memory.write Memory.read
  by_cases hlt : a < Config.memSize
  · by_cases hk : a = k
    · subst hk
      by_cases hb : b = unlistedByte font a <;> simp [hlt, hb, Memory.find_put, Memory.find_drop]
    · by_cases hb : b = unlistedByte font a <;> simp [hlt, hb, hk, Memory.find_put, Memory.find_drop]
  · simp [hlt]

/-- A store seen through the read of one byte. -/
theorem State.byteAt_storeByte (s : State) (a k : Nat) (b : Byte) :
    (s.storeByte a b).byteAt k = if a = k ∧ a < Config.memSize then b else s.byteAt k :=
  Memory.read_write s.params.font s.mem a k b

/-! ## The canonical form -/

theorem Memory.wfFrom_mono : ∀ {m : Memory} {lo hi : Nat}, lo ≤ hi →
    Memory.wfFrom font hi m = true → Memory.wfFrom font lo m = true
  | [], _, _, _, _ => rfl
  | (k, c) :: m, lo, hi, hle, h => by
    simp only [Memory.wfFrom, Bool.and_eq_true, decide_eq_true_eq] at h ⊢
    exact ⟨⟨⟨by omega, h.1.1.2⟩, h.1.2⟩, h.2⟩

theorem Memory.wfFrom_put : ∀ {m : Memory} {lo : Nat}, lo ≤ a → a < Config.memSize → b ≠ unlistedByte font a →
    Memory.wfFrom font lo m = true → Memory.wfFrom font lo (Memory.put m a b) = true
  | [], lo, hlo, hlt, hb, _ => by simp [Memory.put, Memory.wfFrom, hlo, hlt, hb]
  | (k, c) :: m, lo, hlo, hlt, hb, h => by
    have h' := h
    simp only [Memory.wfFrom, Bool.and_eq_true, decide_eq_true_eq] at h'
    obtain ⟨⟨⟨h1, h2⟩, h3⟩, h4⟩ := h'
    rcases Nat.lt_trichotomy a k with hk | rfl | hk
    · rw [Memory.put, if_pos hk]
      simp [Memory.wfFrom, hlo, hlt, hb, h2, h4, Nat.succ_le_of_lt hk]
      simpa using h3
    · rw [Memory.put, if_neg (by omega), if_pos rfl]
      simp [Memory.wfFrom, hlo, hlt, hb, h4]
    · rw [Memory.put, if_neg (by omega), if_neg (by omega)]
      have ih := Memory.wfFrom_put (lo := k + 1) hk hlt hb h4
      simp [Memory.wfFrom, h1, h2, ih]
      simpa using h3

theorem Memory.wfFrom_drop : ∀ {m : Memory} {lo : Nat} (a : Nat),
    Memory.wfFrom font lo m = true → Memory.wfFrom font lo (Memory.drop m a) = true
  | [], _, _, _ => rfl
  | (k, c) :: m, lo, a, h => by
    simp only [Memory.wfFrom, Bool.and_eq_true, decide_eq_true_eq] at h
    obtain ⟨⟨⟨h1, h2⟩, h3⟩, h4⟩ := h
    have ih := Memory.wfFrom_drop a h4
    by_cases hk : k = a
    · rw [Memory.drop, if_pos hk]
      exact Memory.wfFrom_mono (by omega) ih
    · rw [Memory.drop, if_neg hk]
      simp [Memory.wfFrom, h1, h2, ih]
      simpa using h3

/-- A write keeps the canonical form. -/
theorem Memory.wf_write (h : Memory.wf font m = true) : Memory.wf font (Memory.write font m a b) = true := by
  unfold Memory.write
  split
  · split
    · exact Memory.wfFrom_drop a h
    · exact Memory.wfFrom_put (Nat.zero_le a) (by assumption) (by assumption) h
  · exact h

/-- A store keeps the canonical form. -/
theorem State.wf_storeByte {s : State} (h : Memory.wf s.params.font s.mem = true) :
    Memory.wf (s.storeByte a b).params.font (s.storeByte a b).mem = true := Memory.wf_write h

/-- The memory after construction is in canonical form. -/
theorem State.wf_construct (p : Params) :
    Memory.wf (State.construct p).params.font (State.construct p).mem = true := rfl

/-! ## Runs of bytes -/

/-- Storing bytes changes memory alone. -/
theorem State.storeBytes_eq (s : State) (base : Nat) (bs : List Byte) :
    s.storeBytes base bs = { s with mem := (s.storeBytes base bs).mem } := by
  induction bs generalizing s base with
  | nil => rfl
  | cons b bs ih => rw [State.storeBytes, ih]; rfl

variable (s : State) (base : Nat) (bs : List Byte)

@[simp] theorem State.storeBytes_v : (s.storeBytes base bs).v = s.v := by rw [State.storeBytes_eq]
@[simp] theorem State.storeBytes_i : (s.storeBytes base bs).i = s.i := by rw [State.storeBytes_eq]
@[simp] theorem State.storeBytes_pc : (s.storeBytes base bs).pc = s.pc := by rw [State.storeBytes_eq]
@[simp] theorem State.storeBytes_sp : (s.storeBytes base bs).sp = s.sp := by rw [State.storeBytes_eq]
@[simp] theorem State.storeBytes_stack : (s.storeBytes base bs).stack = s.stack := by rw [State.storeBytes_eq]
@[simp] theorem State.storeBytes_dt : (s.storeBytes base bs).dt = s.dt := by rw [State.storeBytes_eq]
@[simp] theorem State.storeBytes_st : (s.storeBytes base bs).st = s.st := by rw [State.storeBytes_eq]
@[simp] theorem State.storeBytes_keys : (s.storeBytes base bs).keys = s.keys := by rw [State.storeBytes_eq]
@[simp] theorem State.storeBytes_disp : (s.storeBytes base bs).disp = s.disp := by rw [State.storeBytes_eq]
@[simp] theorem State.storeBytes_status : (s.storeBytes base bs).status = s.status := by rw [State.storeBytes_eq]
@[simp] theorem State.storeBytes_params : (s.storeBytes base bs).params = s.params := by rw [State.storeBytes_eq]
@[simp] theorem State.storeBytes_random : (s.storeBytes base bs).random = s.random := by rw [State.storeBytes_eq]

/-- A run of stored bytes seen through the read of one byte (R55, R56). -/
theorem State.byteAt_storeBytes (s : State) (base : Nat) (bs : List Byte) (k : Nat) :
    (s.storeBytes base bs).byteAt k =
      if base ≤ k ∧ k < base + bs.length ∧ k < Config.memSize then bs.getD (k - base) 0 else s.byteAt k := by
  induction bs generalizing s base with
  | nil =>
    have : ¬ (base ≤ k ∧ k < base + ([] : List Byte).length ∧ k < Config.memSize) := by simp; omega
    rw [if_neg this]
    rfl
  | cons b bs ih =>
    rw [State.storeBytes, ih, State.byteAt_storeByte]
    rcases Nat.lt_trichotomy base k with h | h | h
    · have hk : k - base = (k - (base + 1)) + 1 := by omega
      have hne : ¬ (base = k ∧ base < Config.memSize) := by omega
      rw [if_neg hne, hk, List.getD_cons_succ]
      by_cases hin : k < base + (b :: bs).length ∧ k < Config.memSize
      · rw [if_pos (by simp at hin ⊢; omega), if_pos (by simp at hin ⊢; omega)]
      · rw [if_neg (by simp at hin ⊢; omega), if_neg (by simp at hin ⊢; omega)]
    · subst h
      rw [if_neg (by omega)]
      by_cases hm : base < Config.memSize <;> simp [hm]
    · rw [if_neg (by omega), if_neg (by omega), if_neg (by omega)]

/-- Storing bytes keeps the canonical form. -/
theorem State.wf_storeBytes {s : State} {base : Nat} {bs : List Byte}
    (h : Memory.wf s.params.font s.mem = true) :
    Memory.wf s.params.font (s.storeBytes base bs).mem = true := by
  induction bs generalizing s base with
  | nil => exact h
  | cons b bs ih => exact ih (s := s.storeByte base b) (Memory.wf_write h)

/-- The `k`-th of a run of bytes read. -/
theorem State.bytesAt_getD (s : State) (base n k : Nat) (h : k < n) :
    (s.bytesAt base n).getD k 0 = s.byteAt (base + k) := by
  simp [State.bytesAt, List.getD_eq_getElem?_getD, h]

@[simp] theorem State.bytesAt_length (s : State) (base n : Nat) : (s.bytesAt base n).length = n := by
  simp [State.bytesAt]

/-- What the bounds check says: none exactly when every byte exists, else the lowest address above 0xFFF (R51, R223). -/
theorem outOfBounds_eq_none_iff {base n : Nat} : outOfBounds base n = none ↔ (n = 0 ∨ base + n ≤ 0x1000) := by
  unfold outOfBounds Config.memSize
  split <;> simp <;> omega

theorem outOfBounds_eq_some_iff {base n a : Nat} :
    outOfBounds base n = some a ↔ (n ≠ 0 ∧ 0x1000 < base + n ∧ a = max base 0x1000) := by
  unfold outOfBounds Config.memSize
  split <;> simp <;> omega

end Sys2Proof.Machine
end

