-- ==== Sys2Proof/Laws/Ops.lean ====
section
/-! SUPPORT. One lemma for each shared operation, saying once everything it can do; proofs cite these and unfold no operation. -/

namespace Sys2Proof.Machine

variable (s : State)

/-! ## Registers -/

theorem State.reg_setReg (x r : Reg) (b : Byte) : (s.setReg x b).reg r = if x = r then b else s.reg r := by
  unfold State.reg State.setReg
  simp only [Vector.getElem_set, Fin.val_inj]

@[simp] theorem State.reg_setReg_self (x : Reg) (b : Byte) : (s.setReg x b).reg x = b := by
  simp [State.reg_setReg]

theorem State.reg_setReg_ne {x r : Reg} (b : Byte) (h : x ≠ r) : (s.setReg x b).reg r = s.reg r := by
  simp [State.reg_setReg, h]

/-- Two states with one register file read alike. -/
theorem State.reg_congr {s t : State} (h : t.v = s.v) (r : Reg) : t.reg r = s.reg r := by
  unfold State.reg; rw [h]

/-- Writing a run of registers changes the register file alone. -/
theorem State.setRegsFrom_eq (s : State) (k : Nat) (bs : List Byte) :
    s.setRegsFrom k bs = { s with v := (s.setRegsFrom k bs).v } := by
  induction bs generalizing s k with
  | nil => rfl
  | cons b bs ih =>
    rw [State.setRegsFrom]
    split
    · rw [ih]; rfl
    · rfl

/-- A run of registers written, seen register by register (R185). -/
theorem State.reg_setRegsFrom (s : State) (k : Nat) (bs : List Byte) (r : Reg) :
    (s.setRegsFrom k bs).reg r = if k ≤ r.val ∧ r.val < k + bs.length then bs.getD (r.val - k) 0 else s.reg r := by
  induction bs generalizing s k with
  | nil => rw [State.setRegsFrom, if_neg (by simp)]
  | cons b bs ih =>
    rw [State.setRegsFrom]
    split
    · next hk =>
      rw [ih, State.reg_setReg]
      rcases Nat.lt_trichotomy k r.val with h | h | h
      · have he : ¬ (⟨k, hk⟩ : Reg) = r := by rintro rfl; simp at h
        have hsub : r.val - k = (r.val - (k + 1)) + 1 := by omega
        rw [if_neg he, hsub, List.getD_cons_succ]
        by_cases hin : r.val < k + (b :: bs).length
        · rw [if_pos (by simp at hin ⊢; omega), if_pos (by simp at hin ⊢; omega)]
        · rw [if_neg (by simp at hin ⊢; omega), if_neg (by simp at hin ⊢; omega)]
      · have he : (⟨k, hk⟩ : Reg) = r := Fin.ext h
        rw [if_neg (by omega), if_pos he, if_pos (by simp; omega)]
        simp [h]
      · have he : ¬ (⟨k, hk⟩ : Reg) = r := by rintro rfl; simp at h
        rw [if_neg (by omega), if_neg he, if_neg (by omega)]
    · rw [if_neg (by omega)]

/-- The `k`-th of the registers stored by Fx55 (R184). -/
theorem State.regsUpTo_getD (x : Reg) (r : Reg) (h : r ≤ x) : (s.regsUpTo x).getD r.val 0 = s.reg r := by
  have hr : r.val < x.val + 1 := Nat.lt_succ_of_le h
  simp [State.regsUpTo, State.reg, List.getD_eq_getElem?_getD, hr]

@[simp] theorem State.regsUpTo_length (x : Reg) : (s.regsUpTo x).length = x.val + 1 := by
  simp [State.regsUpTo]

/-! ## The call stack -/

/-- Everything a push can do (R134). -/
theorem State.pushPc_cases (s : State) :
    (s.sp.val = 16 ∧ s.pushPc = none) ∨
    (∃ (h : s.sp.val < 16) (t : State), s.pushPc = some t ∧
      t = { s with stack := s.stack.set s.sp.val s.pc, sp := ⟨s.sp.val + 1, Nat.succ_lt_succ h⟩ }) := by
  by_cases h : s.sp.val < 16
  · exact .inr ⟨h, _, by rw [State.pushPc, dif_pos h], rfl⟩
  · exact .inl ⟨by omega, by rw [State.pushPc, dif_neg h]⟩

/-- Everything a pop can do (R132). -/
theorem State.popPc_cases (s : State) :
    (s.sp.val = 0 ∧ s.popPc = none) ∨
    (∃ (h : 0 < s.sp.val) (t : State), s.popPc = some t ∧
      t = { s with sp := ⟨s.sp.val - 1, by omega⟩, pc := s.stack[s.sp.val - 1]'(by omega) }) := by
  by_cases h : 0 < s.sp.val
  · exact .inr ⟨h, _, by rw [State.popPc, dif_pos h], rfl⟩
  · exact .inl ⟨by omega, by rw [State.popPc, dif_neg h]⟩

/-! ## The keypad -/

/-- A key operand names the key of the same number, and there is none exactly when the register exceeds 0x0F (R200). -/
theorem State.keyOperand_cases (x : Reg) :
    (0x0F < (s.reg x).toNat ∧ s.keyOperand x = none) ∨
    (∃ k : Key, k.val = (s.reg x).toNat ∧ s.keyOperand x = some k) := by
  by_cases h : (s.reg x).toNat < 16
  · exact .inr ⟨⟨_, h⟩, rfl, by rw [State.keyOperand, dif_pos h]⟩
  · exact .inl ⟨by omega, by rw [State.keyOperand, dif_neg h]⟩

/-- The lowest pressed key: none exactly when no key is pressed, else pressed with none below it (R204). -/
theorem State.lowestKey_cases (s : State) :
    ((∀ k, s.key k = false) ∧ s.lowestKey = none) ∨
    (∃ k, s.lowestKey = some k ∧ s.key k = true ∧ ∀ j, j < k → s.key j = false) := by
  cases h : s.lowestKey with
  | none =>
    refine .inl ⟨fun k => ?_, rfl⟩
    have := List.find?_eq_none.mp h k (List.mem_finRange k)
    simpa using this
  | some k =>
    refine .inr ⟨k, rfl, ?_, fun j hj => ?_⟩
    · exact List.find?_some h
    · obtain ⟨-, as, bs, hsplit, hnot⟩ := List.find?_eq_some_iff_append.mp h
      have hmem : j ∈ as := by
        have hj' : j ∈ as ++ k :: bs := hsplit ▸ List.mem_finRange j
        have hsorted : (as ++ k :: bs).Pairwise (· < ·) := hsplit ▸ List.pairwise_lt_finRange 16
        rcases List.mem_append.mp hj' with h1 | h1
        · exact h1
        · rcases List.mem_cons.mp h1 with rfl | h2
          · exact absurd hj (lt_irrefl _)
          · have := (List.pairwise_append.mp hsorted).2.1
            exact absurd (List.rel_of_pairwise_cons this h2) (not_lt.mpr hj.le)
      simpa using hnot j hmem

/-! ## The display -/

theorem Display.cell_toggle (d : Display) (c c' : Fin 64) (r r' : Fin 32) :
    Display.cell (Display.toggle d c r) c' r' =
      if c = c' ∧ r = r' then !Display.cell d c' r' else Display.cell d c' r' := by
  unfold Display.toggle Display.cell
  rw [Vector.getElem_set]
  by_cases hc : c = c'
  · subst hc
    rw [if_pos rfl, Vector.getElem_set]
    by_cases hr : r = r'
    · subst hr; simp
    · have : ¬ r.val = r'.val := fun h => hr (Fin.ext h)
      simp [hr, this]
  · have : ¬ c.val = c'.val := fun h => hc (Fin.ext h)
    simp [hc, this]

@[simp] theorem Display.cell_blank (c : Fin 64) (r : Fin 32) : Display.cell Display.blank c r = false := by
  simp [Display.cell, Display.blank]

/-- Displays with the same cells are equal. -/
theorem Display.ext_cell {d e : Display} (h : ∀ c r, Display.cell d c r = Display.cell e c r) : d = e := by
  apply Vector.ext
  intro c hc
  apply Vector.ext
  intro r hr
  exact h ⟨c, hc⟩ ⟨r, hr⟩

/-! ## Timers -/

/-- A tick takes one from a timer and stops at 0 (R96). -/
theorem tickTimer_toNat (t : Byte) : (tickTimer t).toNat = t.toNat - 1 := by
  unfold tickTimer
  split
  · subst_vars; rfl
  · next h =>
    have : t.toNat ≠ 0 := fun h0 => h (BitVec.eq_of_toNat_eq (by simpa using h0))
    rw [BitVec.toNat_sub]
    simp
    omega

/-! ## Status -/

theorem State.isRunning_iff : s.isRunning = true ↔ s.status = .running := by
  simp [State.isRunning]

/-- The end of a step that has raised no fault is a tick (R96). -/
theorem State.finish_running {s : State} (h : s.status = .running) : s.finish = s.tick := by
  simp [State.finish, State.isRunning, h]

/-- The end of a step that has raised a fault changes nothing (R95). -/
theorem State.finish_faulted {s : State} {rec : FaultRecord} (h : s.status = .faulted rec) : s.finish = s := by
  simp [State.finish, State.isRunning, h]

/-- `raise` answers a next state: the fault taken at the address of the instruction (R95, R221). -/
theorem raise_eq (cause : FaultCause) (info : Option Nat) (i : Instr) (s : State) :
    raise cause info i s = .next (s.takeFault cause (s.pc - 2) (some (encode i)) info) := rfl

end Sys2Proof.Machine
end

