-- ==== Sys2Proof/Laws/Sprite.lean ====
section
/-! SUPPORT. The sprite XOR engine, bit by bit and byte by byte (41_display.md R111). -/

namespace Sys2Proof.Machine

/-- One sprite bit seen cell by cell. -/
theorem cell_xorBit (c c' : Fin 64) (r r' : Fin 32) (bit : Bool) (acc : Scan) :
    Display.cell (xorBit c r bit acc).1 c' r' =
      (Display.cell acc.1 c' r' ^^ (bit && decide (c = c' ∧ r = r'))) := by
  unfold xorBit
  cases bit
  · simp
  · simp only [if_true, Display.cell_toggle, Bool.true_and]
    by_cases h : c = c' ∧ r = r' <;> simp [h]

/-- One sprite bit collides when it is set over a lit cell. -/
theorem hit_xorBit (c : Fin 64) (r : Fin 32) (bit : Bool) (acc : Scan) :
    (xorBit c r bit acc).2 = (acc.2 || (bit && Display.cell acc.1 c r)) := by
  unfold xorBit
  cases bit <;> simp

theorem wrapColumn_val (c : Nat) : (wrapColumn c).val = c % 64 := rfl
theorem wrapRow_val (r : Nat) : (wrapRow r).val = r % 32 := rfl

/-- A row of a sprite leaves every cell that no set bit of it falls on (R113). -/
theorem cell_xorRow_outside (x0 row : Nat) (b : Byte) (acc : Scan) (c : Fin 64) (r : Fin 32)
    (h : ∀ dc, dc < 8 → (x0 + dc) % 64 = c.val → row % 32 = r.val → spriteBit b dc = false) :
    Display.cell (xorRow x0 row b acc).1 c r = Display.cell acc.1 c r := by
  have scan : ∀ (offsets : List Nat) (acc : Scan), (∀ dc ∈ offsets, dc < 8) →
      Display.cell (offsets.foldl (fun acc dc => xorBit (wrapColumn (x0 + dc)) (wrapRow row) (spriteBit b dc) acc) acc).1 c r =
        Display.cell acc.1 c r := by
    intro offsets
    induction offsets with
    | nil => exact fun _ _ => rfl
    | cons dc offsets ih =>
      intro acc hlt
      rw [List.foldl_cons, ih _ fun k hk => hlt k (List.mem_cons_of_mem _ hk), cell_xorBit]
      by_cases hit : wrapColumn (x0 + dc) = c ∧ wrapRow row = r
      · rw [h dc (hlt dc List.mem_cons_self) (congrArg Fin.val hit.1) (congrArg Fin.val hit.2)]
        simp
      · simp [hit]
  exact scan _ acc fun _ => List.mem_range.mp

/-- The scan of a sprite leaves every cell that no set bit of it falls on (R113). -/
theorem cell_xorRows_outside (x0 : Nat) (sprite : List Byte) (c : Fin 64) (r : Fin 32) : ∀ (row : Nat) (acc : Scan),
    (∀ dc dr : Nat, dc < 8 → ∀ h : dr < sprite.length, (x0 + dc) % 64 = c.val → (row + dr) % 32 = r.val →
      spriteBit sprite[dr] dc = false) →
    Display.cell (xorRows x0 row sprite acc).1 c r = Display.cell acc.1 c r := by
  induction sprite with
  | nil => exact fun _ _ _ => rfl
  | cons b bs ih =>
    intro row acc h
    rw [xorRows, ih]
    · exact cell_xorRow_outside _ _ _ _ _ _ fun dc hdc hc hr => h dc 0 hdc (Nat.succ_pos _) hc hr
    · intro dc dr hdc hdr hc hr
      exact h dc (dr + 1) hdc (Nat.succ_lt_succ hdr) hc (by rw [← hr]; congr 1; omega)

end Sys2Proof.Machine
end

