-- ==== Sys2Proof/Laws/Operands.lean ====
section
/-! SUPPORT. Every operand form and flag computation as an exact number. -/

namespace Sys2Proof.Machine

variable (s : State)

/-- Zero extension of a 12-bit address (R72). -/
@[simp] theorem addressOperand_toNat (nnn : BitVec 12) : (addressOperand nnn).toNat = nnn.toNat := by
  have := nnn.isLt
  simp [addressOperand]
  omega

/-- The target of JP V0, nnn is the exact sum (R139). -/
theorem State.offsetTarget_toNat (nnn : BitVec 12) :
    (s.offsetTarget nnn).toNat = (s.reg v0).toNat + nnn.toNat := by
  have := nnn.isLt
  have := (s.reg v0).isLt
  rw [State.offsetTarget, BitVec.toNat_add, addressOperand_toNat]
  simp
  omega

/-- The glyph address is the exact product and sum (R182). -/
theorem glyphAddress_toNat (v : Byte) : (glyphAddress v).toNat = v.toNat * 5 + 0x050 := by
  have := v.isLt
  simp [glyphAddress, Config.fontBase, BitVec.toNat_add, BitVec.toNat_mul]
  omega

/-- I plus a byte, modulo 2^16 (R181). -/
theorem State.indexSum_toNat (v : Byte) : (s.indexSum v).toNat = (s.i.toNat + v.toNat) % 65536 := by
  have := v.isLt
  simp [State.indexSum, BitVec.toNat_add]

@[simp] theorem decimalDigits_length (v : Byte) : (decimalDigits v).length = 3 := rfl

/-- The pc after a skip (R131). -/
theorem State.skipIf_pc (c : Bool) : (s.skipIf c).pc = if c = true then s.pc + 2 else s.pc := by
  unfold State.skipIf
  split <;> rfl

/-- `flagByte` as a number. -/
theorem flagByte_toNat (b : Bool) : (flagByte b).toNat = if b then 1 else 0 := by
  cases b <;> rfl

theorem carryOut_iff (a b : Byte) : carryOut a b = true ↔ 255 < a.toNat + b.toNat := by simp [carryOut]
theorem noBorrow_iff (a b : Byte) : noBorrow a b = true ↔ b.toNat < a.toNat := by simp [noBorrow]

/-- The bit a right shift shifts out, as a number (R159). -/
theorem shiftedOutRight_toNat (b : Byte) : (flagByte (shiftedOutRight b)).toNat = b.toNat % 2 := by
  rw [flagByte_toNat, shiftedOutRight, BitVec.getLsbD, Nat.testBit_zero]
  rcases Nat.mod_two_eq_zero_or_one b.toNat with h | h <;> simp [h]

/-- The bit a left shift shifts out, as a number (R161). -/
theorem shiftedOutLeft_toNat (b : Byte) : (flagByte (shiftedOutLeft b)).toNat = b.toNat / 128 := by
  have := b.isLt
  rw [flagByte_toNat, shiftedOutLeft, BitVec.getLsbD, Nat.testBit_eq_decide_div_mod_eq]
  simp only [decide_eq_true_eq]
  split <;> omega

end Sys2Proof.Machine
end

