-- ==== Sys2Proof/Laws/Step.lean ====
section
/-! SUPPORT. What a step and each meaning with more than one outcome can do, said once. -/

namespace Sys2Proof.Machine

/-- Everything a step that answers a next state can have done (R90 to R96). -/
theorem step_cases {s t : State} (h : step s = .next t) :
    s.status = .running ∧
    ((∃ a, s.fetchOutOfBounds = some a ∧ t = s.takeFault .outOfBoundsAccess s.pc none (some a)) ∨
     (s.fetchOutOfBounds = none ∧ decodeWord s.fetchedWord = .error .familyF ∧ s.params.unknownF = .ignore ∧
        t = s.advance.finish) ∨
     (s.fetchOutOfBounds = none ∧ (∃ e, decodeWord s.fetchedWord = .error e ∧
        ¬ (e = .familyF ∧ s.params.unknownF = .ignore)) ∧
        t = s.takeFault .illegalInstruction s.pc (some s.fetchedWord) (some s.fetchedWord.toNat)) ∨
     (s.fetchOutOfBounds = none ∧ ∃ i u, decodeWord s.fetchedWord = .ok i ∧ exec i s.advance = .next u ∧
        t = u.finish)) := by
  unfold step stepBlock at h
  split at h
  · refine ⟨by assumption, ?_⟩
    unfold runCycle at h
    split at h
    · next a ha =>
      cases h
      exact .inl ⟨a, ha, rfl⟩
    · next hn =>
      unfold runWord at h
      split at h
      · next i hi =>
        unfold completeStep at h
        split at h
        · next u hu =>
          cases h
          exact .inr (.inr (.inr ⟨hn, i, u, hi, hu, rfl⟩))
        · cases h
        · cases h
      · next e he =>
        unfold rejectWord at h
        split at h
        · next hp =>
          obtain ⟨rfl, hp⟩ := hp
          cases h
          exact .inr (.inl ⟨hn, he, hp, rfl⟩)
        · next hp =>
          cases h
          exact .inr (.inr (.inl ⟨hn, ⟨e, he, hp⟩, rfl⟩))
  · cases h

/-- Both outcomes of RET (R132). -/
theorem execRet_cases (s : State) :
    (s.sp.val = 0 ∧ execRet s = raise .stackUnderflow none .ret s) ∨
    (∃ _h : 0 < s.sp.val, execRet s =
      .next { s with sp := ⟨s.sp.val - 1, by omega⟩, pc := s.stack[s.sp.val - 1]'(by omega) }) := by
  unfold execRet
  obtain ⟨h, e⟩ | ⟨h, t, e, rfl⟩ := s.popPc_cases
  · exact .inl ⟨h, by rw [e]⟩
  · exact .inr ⟨h, by rw [e]⟩

/-- Both outcomes of CALL (R134). -/
theorem execCall_cases (nnn : BitVec 12) (s : State) :
    (s.sp.val = 16 ∧ execCall nnn s = raise .stackOverflow none (.call nnn) s) ∨
    (∃ h : s.sp.val < 16, execCall nnn s =
      .next { s with stack := s.stack.set s.sp.val s.pc, sp := ⟨s.sp.val + 1, Nat.succ_lt_succ h⟩,
                     pc := addressOperand nnn }) := by
  unfold execCall
  obtain ⟨h, e⟩ | ⟨h, t, e, rfl⟩ := s.pushPc_cases
  · exact .inl ⟨h, by rw [e]⟩
  · exact .inr ⟨h, by rw [e]; rfl⟩

/-- Both outcomes of a meaning that first checks `n` bytes at I (R51, R95). -/
theorem indexOutOfBounds_cases (s : State) (n : Nat) :
    (s.indexOutOfBounds n = none ∧ (n = 0 ∨ s.i.toNat + n ≤ 0x1000)) ∨
    (n ≠ 0 ∧ 0x1000 < s.i.toNat + n ∧ s.indexOutOfBounds n = some (max s.i.toNat 0x1000)) := by
  unfold State.indexOutOfBounds
  cases h : outOfBounds s.i.toNat n with
  | none => exact .inl ⟨rfl, outOfBounds_eq_none_iff.mp h⟩
  | some a =>
    obtain ⟨h1, h2, rfl⟩ := outOfBounds_eq_some_iff.mp h
    exact .inr ⟨h1, h2, rfl⟩

/-- Both outcomes of DRW (R111). -/
theorem execDrw_cases (x y : Reg) (n : Nat) (s : State) :
    (n ≠ 0 ∧ 0x1000 < s.i.toNat + n ∧
      execDrw x y n s = raise .outOfBoundsAccess (some (max s.i.toNat 0x1000)) (.drw x y n) s) ∨
    ((n = 0 ∨ s.i.toNat + n ≤ 0x1000) ∧ execDrw x y n s =
      .next ((s.setDisp (drawSprite (s.spriteColumn x) (s.spriteRow y) (s.bytesAt s.i.toNat n) s.disp).1).setReg vF
        (flagByte (drawSprite (s.spriteColumn x) (s.spriteRow y) (s.bytesAt s.i.toNat n) s.disp).2))) := by
  unfold execDrw
  obtain ⟨e, h⟩ | ⟨h1, h2, e⟩ := indexOutOfBounds_cases s n
  · exact .inr ⟨h, by rw [e]⟩
  · exact .inl ⟨h1, h2, by rw [e]⟩

/-- Both outcomes of LD B, Vx (R183). -/
theorem execLdB_cases (x : Reg) (s : State) :
    (0x1000 < s.i.toNat + 3 ∧
      execLdB x s = raise .outOfBoundsAccess (some (max s.i.toNat 0x1000)) (.ldB x) s) ∨
    (s.i.toNat + 3 ≤ 0x1000 ∧ execLdB x s = .next (s.storeBytes s.i.toNat (decimalDigits (s.reg x)))) := by
  unfold execLdB
  obtain ⟨e, h⟩ | ⟨-, h2, e⟩ := indexOutOfBounds_cases s 3
  · exact .inr ⟨by omega, by rw [e]⟩
  · exact .inl ⟨h2, by rw [e]⟩

/-- Both outcomes of LD [I], Vx (R184). -/
theorem execStoreRegs_cases (x : Reg) (s : State) :
    (0x1000 < s.i.toNat + (x.val + 1) ∧
      execStoreRegs x s = raise .outOfBoundsAccess (some (max s.i.toNat 0x1000)) (.storeRegs x) s) ∨
    (s.i.toNat + (x.val + 1) ≤ 0x1000 ∧ execStoreRegs x s = .next (s.storeBytes s.i.toNat (s.regsUpTo x))) := by
  unfold execStoreRegs
  obtain ⟨e, h⟩ | ⟨-, h2, e⟩ := indexOutOfBounds_cases s (x.val + 1)
  · exact .inr ⟨by omega, by rw [e]⟩
  · exact .inl ⟨h2, by rw [e]⟩

/-- Both outcomes of LD Vx, [I] (R185). -/
theorem execLoadRegs_cases (x : Reg) (s : State) :
    (0x1000 < s.i.toNat + (x.val + 1) ∧
      execLoadRegs x s = raise .outOfBoundsAccess (some (max s.i.toNat 0x1000)) (.loadRegs x) s) ∨
    (s.i.toNat + (x.val + 1) ≤ 0x1000 ∧
      execLoadRegs x s = .next (s.setRegsFrom 0 (s.bytesAt s.i.toNat (x.val + 1)))) := by
  unfold execLoadRegs
  obtain ⟨e, h⟩ | ⟨-, h2, e⟩ := indexOutOfBounds_cases s (x.val + 1)
  · exact .inr ⟨by omega, by rw [e]⟩
  · exact .inl ⟨h2, by rw [e]⟩

/-- Both outcomes of SKP (R200, R201). -/
theorem execSkp_cases (x : Reg) (s : State) :
    (0x0F < (s.reg x).toNat ∧ execSkp x s = raise .keyIndexOutOfRange (some (s.reg x).toNat) (.skp x) s) ∨
    (∃ k : Key, k.val = (s.reg x).toNat ∧ execSkp x s = .next (s.skipIf (s.key k))) := by
  unfold execSkp
  obtain ⟨h, e⟩ | ⟨k, h, e⟩ := s.keyOperand_cases x
  · exact .inl ⟨h, by rw [e]⟩
  · exact .inr ⟨k, h, by rw [e]⟩

/-- Both outcomes of SKNP (R200, R202). -/
theorem execSknp_cases (x : Reg) (s : State) :
    (0x0F < (s.reg x).toNat ∧ execSknp x s = raise .keyIndexOutOfRange (some (s.reg x).toNat) (.sknp x) s) ∨
    (∃ k : Key, k.val = (s.reg x).toNat ∧ execSknp x s = .next (s.skipIf (!s.key k))) := by
  unfold execSknp
  obtain ⟨h, e⟩ | ⟨k, h, e⟩ := s.keyOperand_cases x
  · exact .inl ⟨h, by rw [e]⟩
  · exact .inr ⟨k, h, by rw [e]⟩

/-- Both outcomes of LD Vx, K (R204). -/
theorem execLdVxK_cases (x : Reg) (s : State) :
    ((∀ k, s.key k = false) ∧ execLdVxK x s = .next (s.setPc (s.pc - 2))) ∨
    (∃ k, s.key k = true ∧ (∀ j, j < k → s.key j = false) ∧
      execLdVxK x s = .next (s.setReg x (BitVec.ofNat 8 k.val))) := by
  unfold execLdVxK
  obtain ⟨h, e⟩ | ⟨k, e, h1, h2⟩ := s.lowestKey_cases
  · exact .inl ⟨h, by rw [e]; rfl⟩
  · exact .inr ⟨k, h1, h2, by rw [e]⟩

end Sys2Proof.Machine
end

