-- ==== Sys2Proof/Laws/Frame.lean ====
section
/-! SUPPORT. The frame of each shared operation: which parts of the state it can change. A meaning's frame is its operations'
frames put together with `ChangesOnly.trans` and `ChangesOnly.mono`. -/

namespace Sys2Proof.Machine

variable {P Q : Part → Prop} {s t u : State}

theorem Same.refl (s : State) (p : Part) : Same s s p := by cases p <;> rfl

theorem Same.trans {p : Part} (h : Same s t p) (h' : Same t u p) : Same s u p := by
  cases p <;> exact Eq.trans h' h

theorem ChangesOnly.refl (P : Part → Prop) (s : State) : ChangesOnly P s s := fun p _ => Same.refl s p

theorem ChangesOnly.mono (h : ChangesOnly P s t) (hPQ : ∀ p, P p → Q p) : ChangesOnly Q s t :=
  fun p hp => h p fun hP => hp (hPQ p hP)

theorem ChangesOnly.trans (h : ChangesOnly P s t) (h' : ChangesOnly Q t u) : ChangesOnly (fun p => P p ∨ Q p) s u :=
  fun p hp => Same.trans (h p fun hP => hp (.inl hP)) (h' p fun hQ => hp (.inr hQ))

theorem frame_setReg (s : State) (x : Reg) (b : Byte) : ChangesOnly (· = .reg x) s (s.setReg x b) := by
  intro p hp
  cases p with
  | reg r => exact s.reg_setReg_ne b fun h => hp (by rw [h])
  | _ => rfl

theorem frame_setI (s : State) (a : Word) : ChangesOnly (· = .index) s (s.setI a) := by
  intro p hp
  cases p <;> first | rfl | exact absurd rfl hp

theorem frame_setPc (s : State) (a : Word) : ChangesOnly (· = .pc) s (s.setPc a) := by
  intro p hp
  cases p <;> first | rfl | exact absurd rfl hp

theorem frame_setDt (s : State) (b : Byte) : ChangesOnly (· = .delay) s (s.setDt b) := by
  intro p hp
  cases p <;> first | rfl | exact absurd rfl hp

theorem frame_setSt (s : State) (b : Byte) : ChangesOnly (· = .sound) s (s.setSt b) := by
  intro p hp
  cases p <;> first | rfl | exact absurd rfl hp

theorem frame_setDisp (s : State) (d : Display) : ChangesOnly (fun p => ∃ c r, p = .cell c r) s (s.setDisp d) := by
  intro p hp
  cases p with
  | cell c r => exact absurd ⟨c, r, rfl⟩ hp
  | _ => rfl

/-- A draw changes only the cells under the sprite (R113). -/
theorem frame_drawSprite (s : State) (x y : Reg) (n : Nat) :
    ChangesOnly (fun p => ∃ c r, s.underSprite x y n c r ∧ p = .cell c r) s
      (s.setDisp (drawSprite (s.spriteColumn x) (s.spriteRow y) (s.bytesAt s.i.toNat n) s.disp).1) := by
  intro p hp
  cases p with
  | cell c r =>
    refine cell_xorRows_outside _ _ _ _ _ _ fun dc dr hdc hdr hc hr => ?_
    by_contra hbit
    exact hp ⟨c, r, ⟨dc, dr, hdc, hdr, hc, hr, Bool.eq_true_of_not_eq_false hbit⟩, rfl⟩
  | _ => rfl

theorem frame_setKey (s : State) (k : Key) (b : Bool) : ChangesOnly (· = .key k) s (s.setKey k b) := by
  intro p hp
  cases p with
  | key j =>
    have h : ¬ k.val = j.val := fun h => hp (by rw [Fin.ext h])
    simp [Same, State.key, h]
  | _ => rfl

theorem frame_drawRandom (s : State) : ChangesOnly (· = .random) s s.drawRandom := by
  intro p hp
  cases p <;> first | rfl | exact absurd rfl hp

theorem frame_takeFault (s : State) (c : FaultCause) (a : Word) (w : Option Word) (n : Option Nat) :
    ChangesOnly (fun p => p = .pc ∨ p = .status) s (s.takeFault c a w n) := by
  intro p hp
  cases p <;> first | rfl | exact absurd (.inl rfl) hp | exact absurd (.inr rfl) hp

theorem frame_storeBytes (s : State) (base : Nat) (bs : List Byte) :
    ChangesOnly (fun p => ∃ k, k < bs.length ∧ p = .byte (base + k)) s (s.storeBytes base bs) := by
  intro p hp
  cases p with
  | byte a =>
    refine (State.byteAt_storeBytes s base bs a).trans (if_neg ?_)
    rintro ⟨h1, h2, -⟩
    exact hp ⟨a - base, by omega, by rw [show base + (a - base) = a by omega]⟩
  | _ => rw [State.storeBytes_eq]; rfl

theorem frame_setRegsFrom (s : State) (k : Nat) (bs : List Byte) :
    ChangesOnly (fun p => ∃ r : Reg, k ≤ r.val ∧ r.val < k + bs.length ∧ p = .reg r) s (s.setRegsFrom k bs) := by
  intro p hp
  cases p with
  | reg r =>
    refine (State.reg_setRegsFrom s k bs r).trans (if_neg ?_)
    rintro ⟨h1, h2⟩
    exact hp ⟨r, h1, h2, rfl⟩
  | _ => rw [State.setRegsFrom_eq]; rfl

/-- A push changes pc's slot and sp (R134). -/
theorem frame_push (s : State) (j : Fin 16) (w : Word) (n : Fin 17) :
    ChangesOnly (fun p => p = .sp ∨ p = .slot j) s { s with stack := s.stack.set j.val w, sp := n } := by
  intro p hp
  cases p with
  | slot l =>
    have h : ¬ j.val = l.val := fun h => hp (.inr (by rw [Fin.ext h]))
    simp [Same, State.slot, h]
  | sp => exact absurd (.inl rfl) hp
  | _ => rfl

/-- A pop changes pc and sp, and no slot (R132). -/
theorem frame_pop (s : State) (n : Fin 17) (a : Word) :
    ChangesOnly (fun p => p = .pc ∨ p = .sp) s { s with sp := n, pc := a } := by
  intro p hp
  cases p <;> first | rfl | exact absurd (.inl rfl) hp | exact absurd (.inr rfl) hp

end Sys2Proof.Machine
end

