-- ==== Sys2Proof/Laws/PerInstr.lean ====
section
/-! SUPPORT. Laws that hold of every instruction as a term, one lemma per constructor. -/

namespace Sys2Proof.Laws

/-! ## The words of the forms under the masks of the opcode table -/

variable (op : BitVec 4) (x y : Reg) (n : BitVec 4) (nn : Byte) (nnn : BitVec 12)

theorem formA_masked : formA op nnn &&& 0xF000 = op ++ 0#12 := by
  show (op ++ nnn) &&& (BitVec.allOnes 4 ++ 0#12) = _
  rw [BitVec.and_append, BitVec.and_allOnes, BitVec.and_zero]

theorem formXI_masked : formXI op x nn &&& 0xF000 = op ++ 0#4 ++ 0#8 := by
  show (op ++ regBits x ++ nn) &&& (BitVec.allOnes 4 ++ 0#4 ++ 0#8) = _
  simp only [BitVec.and_append, BitVec.and_allOnes, BitVec.and_zero]

theorem formX_masked : formXI op x nn &&& 0xF0FF = op ++ 0#4 ++ nn := by
  show (op ++ regBits x ++ nn) &&& (BitVec.allOnes 4 ++ 0#4 ++ BitVec.allOnes 8) = _
  simp only [BitVec.and_append, BitVec.and_allOnes, BitVec.and_zero]

theorem formXY_masked : formXY op x y n &&& 0xF00F = op ++ 0#4 ++ 0#4 ++ n := by
  show (op ++ regBits x ++ regBits y ++ n) &&& (BitVec.allOnes 4 ++ 0#4 ++ 0#4 ++ BitVec.allOnes 4) = op ++ 0#4 ++ 0#4 ++ n
  simp only [BitVec.and_append, BitVec.and_allOnes, BitVec.and_zero]

theorem formXYN_masked : formXY op x y n &&& 0xF000 = op ++ 0#4 ++ 0#4 ++ 0#4 := by
  show (op ++ regBits x ++ regBits y ++ n) &&& (BitVec.allOnes 4 ++ 0#4 ++ 0#4 ++ 0#4) = op ++ 0#4 ++ 0#4 ++ 0#4
  simp only [BitVec.and_append, BitVec.and_allOnes, BitVec.and_zero]

/-- The word an instruction is encoded to matches that instruction's row of the opcode table (30_encoding.md R74). -/
def EncodesIntoRow.Statement (i : Instr) : Prop := i.row.hits (encode i) = true

namespace EncodesIntoRow

/-- A masked word equal to the pattern matches the row. -/
theorem of_masked {i : Instr} (h : encode i &&& i.row.mask = i.row.pattern) : Statement i := beq_iff_eq.mpr h

theorem cls : Statement .cls := rfl
theorem ret : Statement .ret := rfl
theorem jp (nnn : BitVec 12) : Statement (.jp nnn) := of_masked (formA_masked 0x1 nnn)
theorem call (nnn : BitVec 12) : Statement (.call nnn) := of_masked (formA_masked 0x2 nnn)
theorem seByte (x : Reg) (nn : Byte) : Statement (.seByte x nn) := of_masked (formXI_masked 0x3 x nn)
theorem sneByte (x : Reg) (nn : Byte) : Statement (.sneByte x nn) := of_masked (formXI_masked 0x4 x nn)
theorem seReg (x : Reg) (y : Reg) : Statement (.seReg x y) := of_masked (formXY_masked 0x5 x y 0x0)
theorem ldByte (x : Reg) (nn : Byte) : Statement (.ldByte x nn) := of_masked (formXI_masked 0x6 x nn)
theorem addByte (x : Reg) (nn : Byte) : Statement (.addByte x nn) := of_masked (formXI_masked 0x7 x nn)
theorem ldReg (x : Reg) (y : Reg) : Statement (.ldReg x y) := of_masked (formXY_masked 0x8 x y 0x0)
theorem orReg (x : Reg) (y : Reg) : Statement (.orReg x y) := of_masked (formXY_masked 0x8 x y 0x1)
theorem andReg (x : Reg) (y : Reg) : Statement (.andReg x y) := of_masked (formXY_masked 0x8 x y 0x2)
theorem xorReg (x : Reg) (y : Reg) : Statement (.xorReg x y) := of_masked (formXY_masked 0x8 x y 0x3)
theorem addReg (x : Reg) (y : Reg) : Statement (.addReg x y) := of_masked (formXY_masked 0x8 x y 0x4)
theorem subReg (x : Reg) (y : Reg) : Statement (.subReg x y) := of_masked (formXY_masked 0x8 x y 0x5)
theorem shr (x : Reg) (y : Reg) : Statement (.shr x y) := of_masked (formXY_masked 0x8 x y 0x6)
theorem subn (x : Reg) (y : Reg) : Statement (.subn x y) := of_masked (formXY_masked 0x8 x y 0x7)
theorem shl (x : Reg) (y : Reg) : Statement (.shl x y) := of_masked (formXY_masked 0x8 x y 0xE)
theorem sneReg (x : Reg) (y : Reg) : Statement (.sneReg x y) := of_masked (formXY_masked 0x9 x y 0x0)
theorem ldI (nnn : BitVec 12) : Statement (.ldI nnn) := of_masked (formA_masked 0xA nnn)
theorem jpV0 (nnn : BitVec 12) : Statement (.jpV0 nnn) := of_masked (formA_masked 0xB nnn)
theorem rnd (x : Reg) (nn : Byte) : Statement (.rnd x nn) := of_masked (formXI_masked 0xC x nn)
theorem drw (x : Reg) (y : Reg) (n : Nat) : Statement (.drw x y n) := of_masked (formXYN_masked 0xD x y (BitVec.ofNat 4 n))
theorem skp (x : Reg) : Statement (.skp x) := of_masked (formX_masked 0xE x 0x9E)
theorem sknp (x : Reg) : Statement (.sknp x) := of_masked (formX_masked 0xE x 0xA1)
theorem ldVxDt (x : Reg) : Statement (.ldVxDt x) := of_masked (formX_masked 0xF x 0x07)
theorem ldVxK (x : Reg) : Statement (.ldVxK x) := of_masked (formX_masked 0xF x 0x0A)
theorem ldDtVx (x : Reg) : Statement (.ldDtVx x) := of_masked (formX_masked 0xF x 0x15)
theorem ldStVx (x : Reg) : Statement (.ldStVx x) := of_masked (formX_masked 0xF x 0x18)
theorem addI (x : Reg) : Statement (.addI x) := of_masked (formX_masked 0xF x 0x1E)
theorem ldF (x : Reg) : Statement (.ldF x) := of_masked (formX_masked 0xF x 0x29)
theorem ldB (x : Reg) : Statement (.ldB x) := of_masked (formX_masked 0xF x 0x33)
theorem storeRegs (x : Reg) : Statement (.storeRegs x) := of_masked (formX_masked 0xF x 0x55)
theorem loadRegs (x : Reg) : Statement (.loadRegs x) := of_masked (formX_masked 0xF x 0x65)

end EncodesIntoRow
end Sys2Proof.Laws
end

