-- ==== Sys2Proof/Tests/Slice0.lean ====
section
/-! SUPPORT. The model's own tests: words written out bit by bit from the patterns of 30_encoding.md R74, and one-step vectors of
95_test_vectors.md (its label stands beside each). Expected results come from the spec alone. -/

namespace Sys2Proof.Tests

open Sys2Proof Sys2Proof.Machine

/-! ## WellFormed -/

/-- R72: a row count of 16 has no 4-bit field; 15 is the last that has. -/
theorem test_rows_16_refused : spriteRowsOk 16 = false ∧ (Instr.drw 0 1 16).wellFormed = false := by decide
theorem test_rows_15_accepted : (Instr.drw 0 1 15).wellFormed = true := by decide

/-! ## Decoding: every constructor, by a word written out from its pattern -/

theorem test_decode_zero :
    decodeWord 0b0000000011100000 = .ok .cls ∧ decodeWord 0b0000000011101110 = .ok .ret := by decide
theorem test_decode_address :
    decodeWord 0b0001001000001000 = .ok (.jp 0x208) ∧ decodeWord 0b0010001000001010 = .ok (.call 0x20A) ∧
    decodeWord 0b1010001000100010 = .ok (.ldI 0x222) ∧ decodeWord 0b1011001100000000 = .ok (.jpV0 0x300) := by decide
theorem test_decode_register_byte :
    decodeWord 0b0011001101000010 = .ok (.seByte 3 0x42) ∧ decodeWord 0b0100001101000010 = .ok (.sneByte 3 0x42) ∧
    decodeWord 0b0110101000101011 = .ok (.ldByte 0xA 0x2B) ∧ decodeWord 0b0111001000000011 = .ok (.addByte 2 0x03) ∧
    decodeWord 0b1100001100001111 = .ok (.rnd 3 0x0F) := by decide
theorem test_decode_two_registers :
    decodeWord 0b0101000100100000 = .ok (.seReg 1 2) ∧ decodeWord 0b1001000100100000 = .ok (.sneReg 1 2) ∧
    decodeWord 0b1000000101010000 = .ok (.ldReg 1 5) ∧ decodeWord 0b1000000100100001 = .ok (.orReg 1 2) ∧
    decodeWord 0b1000000100100010 = .ok (.andReg 1 2) ∧ decodeWord 0b1000000100100011 = .ok (.xorReg 1 2) := by decide
theorem test_decode_flag_alu :
    decodeWord 0b1000101010110100 = .ok (.addReg 0xA 0xB) ∧ decodeWord 0b1000101010110101 = .ok (.subReg 0xA 0xB) ∧
    decodeWord 0b1000000100100110 = .ok (.shr 1 2) ∧ decodeWord 0b1000000100100111 = .ok (.subn 1 2) ∧
    decodeWord 0b1000000100101110 = .ok (.shl 1 2) := by decide
theorem test_decode_draw : decodeWord 0b1101000000010101 = .ok (.drw 0 1 5) := by decide
theorem test_decode_keypad_timers :
    decodeWord 0b1110001010011110 = .ok (.skp 2) ∧ decodeWord 0b1110001010100001 = .ok (.sknp 2) ∧
    decodeWord 0b1111010000000111 = .ok (.ldVxDt 4) ∧ decodeWord 0b1111001100001010 = .ok (.ldVxK 3) ∧
    decodeWord 0b1111001100010101 = .ok (.ldDtVx 3) ∧ decodeWord 0b1111001100011000 = .ok (.ldStVx 3) := by decide
theorem test_decode_index_memory :
    decodeWord 0b1111010100011110 = .ok (.addI 5) ∧ decodeWord 0b1111011100101001 = .ok (.ldF 7) ∧
    decodeWord 0b1111000000110011 = .ok (.ldB 0) ∧ decodeWord 0b1111001001010101 = .ok (.storeRegs 2) ∧
    decodeWord 0b1111001001100101 = .ok (.loadRegs 2) := by decide

/-- S2 to S9: the illegal words of R75, one or more a family, each rejected under its family's name. -/
theorem test_decode_illegal :
    decodeWord 0x0123 = .error .family0 ∧ decodeWord 0x01E0 = .error .family0 ∧ decodeWord 0x00E1 = .error .family0 ∧
    decodeWord 0x5121 = .error .family5 ∧ decodeWord 0x8128 = .error .family8 ∧ decodeWord 0x812F = .error .family8 ∧
    decodeWord 0x9121 = .error .family9 ∧ decodeWord 0xE0FF = .error .familyE ∧
    decodeWord 0xF0FF = .error .familyF := by decide

/-- R70, R52: an instruction is two bytes, the first one in bits 15..8; one byte alone is none. -/
theorem test_decode_bytes :
    decode [0x6A, 0x2B, 0x12] = .ok (.ldByte 0xA 0x2B, [0x12]) ∧ decode [0x6A] = .error .truncated ∧
    decode [0x01, 0xE0] = .error (.illegal .family0) ∧ encodeBytes (.ldByte 0xA 0x2B) = [0x6A, 0x2B] := by decide
theorem test_decode_table_word :
    decodeTableWord 16 0xD015 = some (.drw 0 1 5) ∧ decodeTableWord 16 0x5121 = none := by decide
/-- R74: no word matches two rows of the table. -/
theorem test_table_rows_disjoint :
    opcodeTable.Pairwise (fun a b => a.pattern &&& (a.mask &&& b.mask) ≠ b.pattern &&& (a.mask &&& b.mask)) := by decide

/-! ## One step -/

/-- The reset state changed by `f`, with the word `w` at 0x200, after one step that raises no fault. -/
def after (f : State → State) (w : Word) (p : State → Bool) : Bool :=
  match step ((f State.reset).storeWord 0x200 w) with
  | .next t => t.isRunning && p t
  | .fault _ => false
  | .refused _ => false

/-- The same, after one step that faults; the record and the state are tested. -/
def faults (f : State → State) (w : Word) (p : FaultRecord → State → Bool) : Bool :=
  match step ((f State.reset).storeWord 0x200 w) with
  | .next t => match t.status with
    | .faulted rec => p rec t
    | .running => false
  | .fault _ => false
  | .refused _ => false

/-- The record of a fault at 0x200. -/
def recordAt200 (c : FaultCause) (w : Word) (info : Option Nat) : FaultRecord := ⟨c, 0x200, some w, info⟩

/-- D1. -/
theorem test_cls : after (fun s => (s.setDisp (Display.toggle (Display.toggle s.disp 5 7) 63 31)).setReg 0xF 7) 0x00E0
    (fun t => !t.cell 5 7 && !t.cell 63 31 && t.reg 0xF == 7 && t.pc == 0x202) = true := by decide +kernel

/-- C5 (at 0x200). -/
theorem test_ret : after (fun s => { s with sp := 1, stack := s.stack.set 0 0x0302 }) 0x00EE
    (fun t => t.pc == 0x302 && t.sp == 0 && t.slot 0 == 0x302) = true := by decide
/-- C6, S19. -/
theorem test_ret_underflow : faults (fun s => s.setDt 5) 0x00EE
    (fun rec t => rec == recordAt200 .stackUnderflow 0x00EE none && t.pc == 0x200 && t.dt == 5) = true := by decide
/-- C3. -/
theorem test_jp : after id 0x1FFF (fun t => t.pc == 0xFFF) = true := by decide
/-- C8. -/
theorem test_call_sixteenth : after (fun s => { s with sp := 15 }) 0x2300
    (fun t => t.slot 15 == 0x202 && t.sp == 16 && t.pc == 0x300) = true := by decide
/-- C7. -/
theorem test_call_overflow : faults (fun s => { s with sp := 16 }) 0x2300
    (fun rec t => rec == recordAt200 .stackOverflow 0x2300 none && t.sp == 16 && t.pc == 0x200) = true := by decide
/-- W4. -/
theorem test_se_byte : after (·.setReg 3 0x42) 0x3342 (·.pc == 0x204) = true ∧
    after (·.setReg 3 0x41) 0x3342 (·.pc == 0x202) = true := by decide
theorem test_sne_byte : after (·.setReg 3 0x41) 0x4342 (·.pc == 0x204) = true ∧
    after (·.setReg 3 0x42) 0x4342 (·.pc == 0x202) = true := by decide
theorem test_se_reg : after (fun s => (s.setReg 1 7).setReg 2 7) 0x5120 (·.pc == 0x204) = true ∧
    after (fun s => (s.setReg 1 7).setReg 2 8) 0x5120 (·.pc == 0x202) = true := by decide
theorem test_sne_reg : after (fun s => (s.setReg 1 7).setReg 2 8) 0x9120 (·.pc == 0x204) = true ∧
    after (fun s => (s.setReg 1 7).setReg 2 7) 0x9120 (·.pc == 0x202) = true := by decide
/-- C13. -/
theorem test_jp_v0 : after (·.setReg 0 0xFF) 0xBFFF (·.pc == 0x10FE) = true := by decide

/-- W1. -/
theorem test_ld_byte : after id 0x6A2B (fun t => t.reg 0xA == 0x2B && t.pc == 0x202) = true := by decide
/-- A1. -/
theorem test_add_byte : after (fun s => (s.setReg 2 0xFE).setReg 0xF 0x55) 0x7203
    (fun t => t.reg 2 == 0x01 && t.reg 0xF == 0x55) = true := by decide
/-- A4. -/
theorem test_ld_reg : after (·.setReg 5 0x99) 0x8150 (fun t => t.reg 1 == 0x99 && t.reg 5 == 0x99) = true := by decide
/-- A5. -/
theorem test_or : after (fun s => ((s.setReg 1 0x0F).setReg 2 0xF0).setReg 0xF 7) 0x8121
    (fun t => t.reg 1 == 0xFF && t.reg 0xF == 7) = true := by decide
/-- A6. -/
theorem test_and : after (fun s => (s.setReg 1 0x3C).setReg 2 0x0F) 0x8122 (·.reg 1 == 0x0C) = true := by decide
/-- A7. -/
theorem test_xor : after (fun s => (s.setReg 1 0x3C).setReg 2 0x0F) 0x8123 (·.reg 1 == 0x33) = true := by decide
/-- A13. -/
theorem test_add_reg : after (fun s => (s.setReg 1 0x10).setReg 0xF 0xF0) 0x81F4
    (fun t => t.reg 1 == 0x00 && t.reg 0xF == 0x01) = true := by decide
/-- A12: the carry is the last write. -/
theorem test_add_reg_vf : after (fun s => (s.setReg 0xF 0x10).setReg 1 0x20) 0x8F14 (·.reg 0xF == 0x00) = true := by decide
/-- A15: equal operands give no flag. -/
theorem test_sub_equal : after (fun s => ((s.setReg 1 5).setReg 2 5).setReg 0xF 9) 0x8125
    (fun t => t.reg 1 == 0 && t.reg 0xF == 0) = true := by decide
/-- A17: the difference is the last write. -/
theorem test_sub_vf : after (fun s => (s.setReg 0xF 3).setReg 1 5) 0x8F15 (·.reg 0xF == 0xFE) = true := by decide
/-- A24, A25: both shift sources. -/
theorem test_shr_vy : after (·.setReg 2 0x05) 0x8126
    (fun t => t.reg 1 == 0x02 && t.reg 0xF == 1 && t.reg 2 == 0x05) = true := by decide
theorem test_shr_vx : after (fun s => { s.setReg 2 0x05 with params := ⟨.vx, .fault, defaultFont⟩ }) 0x8126
    (fun t => t.reg 1 == 0x00 && t.reg 0xF == 0) = true := by decide
/-- A20. -/
theorem test_subn : after (fun s => (s.setReg 1 5).setReg 2 8) 0x8127
    (fun t => t.reg 1 == 3 && t.reg 0xF == 1) = true := by decide
/-- A23. -/
theorem test_subn_vf : after (fun s => (s.setReg 0xF 2).setReg 1 5) 0x8F17 (·.reg 0xF == 3) = true := by decide
/-- A30. -/
theorem test_shl_vy : after (·.setReg 2 0x81) 0x812E (fun t => t.reg 1 == 0x02 && t.reg 0xF == 1) = true := by decide
/-- A31. -/
theorem test_shl_vx : after (fun s => { (s.setReg 1 0x40).setReg 2 0x81 with params := ⟨.vx, .fault, defaultFont⟩ }) 0x812E
    (fun t => t.reg 1 == 0x80 && t.reg 0xF == 0) = true := by decide
/-- A34. -/
theorem test_rnd : after (·.supplyRandom [0xB7, 0x11]) 0xC30F
    (fun t => t.reg 3 == 0x07 && t.random == ⟨[0x11], 1⟩) = true := by decide

/-- M1. -/
theorem test_ld_i : after id 0xA222 (·.i == 0x222) = true := by decide
/-- M4. -/
theorem test_add_i : after (fun s => (s.setI 0xFFF0).setReg 0 0x20) 0xF01E (·.i == 0x0010) = true := by decide
/-- M10. -/
theorem test_ld_f : after (·.setReg 0 0xFF) 0xF029 (·.i == 0x54B) = true := by decide
/-- M15. -/
theorem test_ld_b : after (fun s => (s.setReg 0 123).setI 0xFFD) 0xF033
    (fun t => t.bytesAt 0xFFC 5 == [0, 1, 2, 3, 0] && t.i == 0xFFD) = true := by decide
/-- M16. -/
theorem test_ld_b_bounds : faults (·.setI 0xFFE) 0xF033 (fun rec t =>
    rec == recordAt200 .outOfBoundsAccess 0xF033 (some 0x1000) && t.bytesAt 0xFFE 2 == [0, 0]) = true := by decide
/-- M17. -/
theorem test_store_regs : after (fun s => (((s.setReg 0 0x11).setReg 1 0x22).setReg 2 0x33).setI 0x400) 0xF255
    (fun t => t.bytesAt 0x400 4 == [0x11, 0x22, 0x33, 0] && t.i == 0x400) = true := by decide
/-- M22. -/
theorem test_store_regs_bounds : faults (·.setI 0x2000) 0xF055 (fun rec _ =>
    rec == recordAt200 .outOfBoundsAccess 0xF055 (some 0x2000)) = true := by decide
/-- M25. -/
theorem test_load_regs_font : after (·.setI 0x050) 0xF465
    (fun t => [t.reg 0, t.reg 1, t.reg 4, t.reg 5] == [0xF0, 0x90, 0xF0, 0]) = true := by decide
/-- M21 for Fx65. -/
theorem test_load_regs_bounds : faults (·.setI 0xFFE) 0xF265 (fun rec t =>
    rec == recordAt200 .outOfBoundsAccess 0xF265 (some 0x1000) && t.reg 0 == 0) = true := by decide

/-- D9. -/
theorem test_drw_collision : after (fun s => ((s.setDisp (Display.toggle s.disp 0 0)).setI 0x300).storeByte 0x300 0xC0) 0xD011
    (fun t => !t.cell 0 0 && t.cell 1 0 && !t.cell 2 0 && t.reg 0xF == 1) = true := by decide +kernel
/-- D6: both coordinates are reduced and the columns wrap. -/
theorem test_drw_wraps : after (fun s => (((s.setReg 0 0xFF).setReg 1 0xFF).setI 0x300).storeByte 0x300 0xC0) 0xD011
    (fun t => t.cell 63 31 && t.cell 0 31 && !t.cell 1 31 && t.reg 0xF == 0) = true := by decide +kernel

/-- K1, K2. -/
theorem test_skp : after (fun s => (s.setReg 2 5).setKey 5 true) 0xE29E (·.pc == 0x204) = true ∧
    after (·.setReg 2 5) 0xE29E (·.pc == 0x202) = true := by decide
/-- K5. -/
theorem test_skp_range : faults (·.setReg 2 0x10) 0xE29E (fun rec _ =>
    rec == recordAt200 .keyIndexOutOfRange 0xE29E (some 0x10)) = true := by decide
/-- K3, K4. -/
theorem test_sknp : after (·.setReg 2 5) 0xE2A1 (·.pc == 0x204) = true ∧
    after (fun s => (s.setReg 2 5).setKey 5 true) 0xE2A1 (·.pc == 0x202) = true := by decide
/-- K6. -/
theorem test_sknp_range : faults (·.setReg 2 0xFF) 0xE2A1 (fun rec _ =>
    rec == recordAt200 .keyIndexOutOfRange 0xE2A1 (some 0xFF)) = true := by decide
/-- K7. -/
theorem test_ld_vx_dt : after (·.setDt 4) 0xF407 (fun t => t.reg 4 == 4 && t.dt == 3) = true := by decide
/-- K10. -/
theorem test_ld_vx_k : after (fun s => (s.setKey 0xC true).setKey 9 true) 0xF30A
    (fun t => t.reg 3 == 9 && t.pc == 0x202) = true := by decide
/-- K9. -/
theorem test_ld_vx_k_waits : after (fun s => (s.setDt 5).setSt 1) 0xF30A
    (fun t => t.pc == 0x200 && t.reg 3 == 0 && t.dt == 4 && t.st == 0) = true := by decide
/-- K12. -/
theorem test_ld_dt_vx : after (·.setReg 3 5) 0xF315 (·.dt == 4) = true := by decide
/-- K15. -/
theorem test_ld_st_vx : after (·.setReg 3 2) 0xF318 (·.st == 1) = true := by decide

/-! ## Fetch, decode, status, loader -/

/-- S9, S10: both policies for an F-family word outside the table. -/
theorem test_unknown_f_fault : faults id 0xF0FF (fun rec _ =>
    rec == recordAt200 .illegalInstruction 0xF0FF (some 0xF0FF)) = true := by decide
theorem test_unknown_f_ignored : after (fun s => { s.setDt 5 with params := ⟨.vy, .ignore, defaultFont⟩ }) 0xF0FF
    (fun t => t.pc == 0x202 && t.dt == 4) = true := by decide
/-- S5: only family F is ever ignored. -/
theorem test_unknown_5_under_ignore : faults (fun s => { s with params := ⟨.vy, .ignore, defaultFont⟩ }) 0x5121 (fun rec _ =>
    rec == recordAt200 .illegalInstruction 0x5121 (some 0x5121)) = true := by decide
/-- S12, S14. -/
theorem test_fetch_bounds : faults (·.setPc 0xFFF) 0 (fun rec _ => rec == ⟨.outOfBoundsAccess, 0xFFF, none, some 0x1000⟩) = true ∧
    faults (·.setPc 0x1008) 0 (fun rec _ => rec == ⟨.outOfBoundsAccess, 0x1008, none, some 0x1008⟩) = true := by decide
/-- S11. -/
theorem test_fetch_last_word : after (fun s => (s.setPc 0xFFE).storeWord 0xFFE 0x1200) 0 (·.pc == 0x200) = true := by decide
/-- S15: a faulted block reports the same record again. -/
theorem test_faulted_stops : step { State.reset with status := .faulted (recordAt200 .stackOverflow 0x2200 none) } =
    .fault (.stopped (recordAt200 .stackOverflow 0x2200 none)) := rfl
/-- S1, R266: with no image loaded the first step finds 0x0000, which is illegal. -/
theorem test_reset_first_step : faults id 0 (fun rec _ => rec == recordAt200 .illegalInstruction 0 (some 0)) = true := by decide
/-- W8. -/
theorem test_font_residency : State.reset.bytesAt 0x04F 7 = [0, 0xF0, 0x90, 0x90, 0x90, 0xF0, 0x20] ∧
    State.reset.bytesAt 0x09B 6 = [0xF0, 0x80, 0xF0, 0x80, 0x80, 0] := by decide
/-- W9, L2. -/
theorem test_load : ((State.reset.transact (.load [0x60, 0x00, 0x61, 0x00, 0xA2, 0x22])).1.bytesAt 0x1FF 8) =
    [0, 0x60, 0x00, 0x61, 0x00, 0xA2, 0x22, 0] := by decide
/-- L4. -/
theorem test_load_too_large : (State.reset.loadProgram (List.replicate 3585 0)).toOption.isNone = true := by decide +kernel

/-! ## Witnesses: concrete states and operands that meet the hypotheses of each statement of Certificates/Slice0/Obligations.lean,
for each of its clauses, at the ends of its ranges -/

/-- The reset state with the word `w` where it fetches. -/
def ready (w : Nat) : State := State.reset.withFetchWord 16 w
/-- The reset state with other parameters. -/
def resetWith (src : ShiftSource) (policy : UnknownFPolicy) : State := State.construct ⟨src, policy, defaultFont⟩
/-- The reset state with I, or with sp, at a value. -/
def indexed (a : Word) : State := State.reset.setI a
def stacked (n : Fin 17) : State := { State.reset with sp := n }

theorem witness_DecodeOfEncodeIsIdentity : (Instr.drw 15 15 15).wellFormed = true ∧ (Instr.cls).wellFormed = true := by decide
theorem witness_EncodeOfDecodeIsIdentity : decode (0xD0 :: 0x1F :: [0x12]) = .ok (.drw 0 1 15, [0x12]) := by decide
theorem witness_DecodesExactlyByTheOpcodeTable : decodeWord 0xFF65 = .ok (.loadRegs 15) ∧ (⟨0xF065, 0xF0FF⟩ : OpcodeRow) ∈ opcodeTable ∧
    legalWord 0xFF65 = true ∧ legalWord 0xFF66 = false := by decide
theorem witness_StepRunsDecodedInstruction : ∃ s : State, s = (State.reset.setPc 0xFFE).withFetchWord 16 0xD01F ∧
    s.status = .running ∧ s.pc.toNat ≤ 0xFFE ∧ (Instr.drw 0 1 15).wellFormed = true ∧
    decode [s.byteAt s.pc.toNat, s.byteAt (s.pc.toNat + 1)] = .ok (.drw 0 1 15, []) :=
  ⟨_, rfl, by decide⟩
theorem witness_FetchBeyondMemoryFaults : (State.reset.setPc 0xFFF).status = .running ∧ 0xFFE < (State.reset.setPc 0xFFF).pc.toNat ∧
    (State.reset.setPc 0x10FE).status = .running ∧ 0xFFE < (State.reset.setPc 0x10FE).pc.toNat := by decide
/-- The four combinations of family and policy. -/
theorem witness_IllegalWordFaultsOrIsIgnored :
    ∀ p ∈ [(0xFFFF, ShiftSource.vy, UnknownFPolicy.ignore), (0xFFFF, .vy, .fault), (0x0000, .vx, .ignore), (0x9FFF, .vx, .fault)],
      ∃ s : State, s = (resetWith p.2.1 p.2.2).withFetchWord 16 p.1 ∧ s.status = .running ∧ s.pc.toNat ≤ 0xFFE ∧
        s.byteAt s.pc.toNat ++ s.byteAt (s.pc.toNat + 1) = BitVec.ofNat 16 p.1 ∧ legalWord (BitVec.ofNat 16 p.1) = false := by
  intro p hp
  refine ⟨_, rfl, ?_⟩
  revert p
  decide
theorem witness_FaultedBlockStaysFaulted :
    State.status { State.reset with status := .faulted (recordAt200 .stackUnderflow 0x00EE none) } =
      .faulted (recordAt200 .stackUnderflow 0x00EE none) := rfl
/-- A fault at execute and a fault at fetch. -/
theorem witness_FaultsArePrecise :
    (∃ t rec, step (ready 0x00EE) = .next t ∧ t.status = .faulted rec ∧ (ready 0x00EE).pc.toNat ≤ 0xFFE) ∧
    (∃ t rec, step (State.reset.setPc 0xFFF) = .next t ∧ t.status = .faulted rec ∧ ¬ (State.reset.setPc 0xFFF).pc.toNat ≤ 0xFFE) :=
  ⟨⟨_, _, rfl, rfl, by decide⟩, ⟨_, _, rfl, rfl, by decide⟩⟩
theorem witness_RunningStepAlwaysCompletes : State.reset.status = .running := rfl
/-- Every row of R220 that execute raises, beside the last operands that raise nothing. -/
theorem witness_ExecuteFaultsExactlyByTheTable :
    (stacked 0).status = .running ∧ (indexed 0).status = .running ∧
    faultOf (stacked 0) .ret = some (.stackUnderflow, none) ∧ faultOf (stacked 1) .ret = none ∧
    faultOf (stacked 16) (.call 0) = some (.stackOverflow, none) ∧ faultOf (stacked 15) (.call 0) = none ∧
    faultOf (indexed 0xFFE) (.ldB 0) = some (.outOfBoundsAccess, some 0x1000) ∧ faultOf (indexed 0xFFD) (.ldB 0) = none ∧
    faultOf (indexed 0xFFF) (.drw 0 0 2) = some (.outOfBoundsAccess, some 0x1000) ∧ faultOf (indexed 0xFFF) (.drw 0 0 1) = none ∧
    faultOf (indexed 0xFFFF) (.drw 0 0 0) = none ∧
    faultOf (indexed 0x1234) (.storeRegs 0) = some (.outOfBoundsAccess, some 0x1234) ∧ faultOf (indexed 0xFF0) (.loadRegs 15) = none ∧
    faultOf (State.reset.setReg 3 0x10) (.skp 3) = some (.keyIndexOutOfRange, some 0x10) ∧
    faultOf (State.reset.setReg 3 0x0F) (.sknp 3) = none := by decide
/-- The two timer loads, and an instruction that leaves the timers to the tick, at 0 and above. -/
theorem witness_TimersTickOncePerCompletedStep :
    ∀ w ∈ [0xF015, 0xF018, 0x6000], ∃ t, step ((ready w).setDt 1) = .next t ∧ t.status = .running := by
  intro w hw
  simp only [List.mem_cons, List.not_mem_nil, or_false] at hw
  rcases hw with rfl | rfl | rfl <;> exact ⟨_, rfl, rfl⟩
/-- A decoded instruction, and the no-operation of R94. -/
theorem witness_PcAfterStepByTheTable : (∃ t, SafeStep (ready 0xF00A) t) ∧
    (∃ t, SafeStep ((resetWith .vy .ignore).withFetchWord 16 0xF0FF) t) :=
  ⟨⟨_, rfl, rfl⟩, ⟨_, rfl, rfl⟩⟩
theorem witness_StepKeepsInvariant : Inv (ready 0x2FFF) ∧ ∃ t, step (ready 0x2FFF) = .next t :=
  ⟨⟨by decide, by decide, by decide⟩, _, rfl⟩
/-- A store to the last byte of memory, a call into the last slot, a draw, and a store that faults. -/
theorem witness_OnlyListedWritersWrite :
    (faultOf (indexed 0xFF0) (.storeRegs 15) = none ∧ ∃ t, exec (.storeRegs 15) (indexed 0xFF0) = .next t) ∧
    (faultOf (stacked 15) (.call 0) = none ∧ ∃ t, exec (.call 0) (stacked 15) = .next t) ∧
    (faultOf (indexed 0xFFF) (.drw 0 1 1) = none ∧ ∃ t, exec (.drw 0 1 1) (indexed 0xFFF) = .next t) ∧
    (faultOf (indexed 0xFF1) (.storeRegs 15) ≠ none ∧ ∃ t, exec (.storeRegs 15) (indexed 0xFF1) = .next t) :=
  ⟨⟨by decide, _, rfl⟩, ⟨by decide, _, rfl⟩, ⟨by decide, _, rfl⟩, by decide, _, rfl⟩
theorem witness_SoundTimerIsNeverRead : ∃ t, step (ready 0xF018) = .next t := ⟨_, rfl⟩
/-- A call into the very slot, and a return below it. -/
theorem witness_DeadStackSlotsAreNeverRead :
    ((ready 0x2300).sp.val ≤ (0 : Fin 16).val ∧ ∃ t, step (ready 0x2300) = .next t) ∧
    (State.sp { ready 0x00EE with sp := 15 }).val ≤ (15 : Fin 16).val ∧ ∃ t, step { ready 0x00EE with sp := 15 } = .next t :=
  ⟨⟨by decide, _, rfl⟩, by decide, _, rfl⟩

/-- A sprite of one byte 0x80 in the last byte of memory, at column 63, row 31, over a cell unlit and lit. -/
def spriteState (lit : Bool) : State :=
  let s := (((State.reset.setReg 0 63).setReg 1 31).setI 0xFFF).storeByte 0xFFF 0x80
  if lit then s.setDisp (Display.toggle s.disp 63 31) else s
theorem witness_DrwXorsCoveredCells :
    (1 ≤ 15 ∧ (spriteState true).i.toNat + 1 - 1 ≤ 0xFFF) ∧ (15 ≤ 15 ∧ (indexed 0xFF1).i.toNat + 15 - 1 ≤ 0xFFF) ∧
    (∃ c r, covers (((spriteState true).reg 0).toNat % 64) (((spriteState true).reg 1).toNat % 32)
      ((List.range 1).map fun k => (spriteState true).byteAt ((spriteState true).i.toNat + k)) c r ∧
      (spriteState true).cell c r = true) ∧
    ¬ covers 0 0 [] 0 0 := by
  refine ⟨by decide, by decide, ⟨63, 31, ⟨0, 0, by decide, by decide, by decide, by decide, by decide⟩, by decide⟩, ?_⟩
  rintro ⟨_, dr, _, h, _⟩
  exact absurd h (Nat.not_lt_zero dr)
theorem witness_DrwBeyondMemoryFaults : (1 ≤ 2 ∧ 2 ≤ 15 ∧ 0xFFF < (indexed 0xFFF).i.toNat + 2 - 1) ∧
    1 ≤ 1 ∧ 1 ≤ 15 ∧ 0xFFF < (indexed 0x1000).i.toNat + 1 - 1 := by decide
theorem witness_DrwTwiceRestoresTheDisplay : ∃ t u, (spriteState false).i.toNat + 1 - 1 ≤ 0xFFF ∧
    exec (.drw 0 1 1) (spriteState false) = .next t ∧ (t.reg 0).toNat % 64 = ((spriteState false).reg 0).toNat % 64 ∧
    (t.reg 1).toNat % 32 = ((spriteState false).reg 1).toNat % 32 ∧ exec (.drw 0 1 1) t = .next u :=
  ⟨_, _, by decide, rfl, by decide +kernel, by decide +kernel, rfl⟩
theorem witness_RetPopsOrUnderflows : (0 : Fin 16).val + 1 = (stacked 1).sp.val ∧ (15 : Fin 16).val + 1 = (stacked 16).sp.val ∧
    (stacked 0).sp.val = 0 := by decide
theorem witness_CallPushesOrOverflows : (0 : Fin 16).val = (stacked 0).sp.val ∧ (15 : Fin 16).val = (stacked 15).sp.val ∧
    (stacked 16).sp.val = 16 := by decide
theorem witness_AddRegWritesSumThenCarry : (14 : Reg) ≠ vF := by decide
theorem witness_SubWritesNoBorrowThenDifference : (0 : Reg) ≠ vF := by decide
theorem witness_ShiftsWriteBitThenResult :
    (∀ p ∈ [ShiftSource.vy, ShiftSource.vx], (if p = .vx then 0x81 else 0x02 : Byte) =
      (match (((resetWith p .fault).setReg 1 0x81).setReg 2 0x02).params.shiftSource with
        | .vy => (((resetWith p .fault).setReg 1 0x81).setReg 2 0x02).reg 2
        | .vx => (((resetWith p .fault).setReg 1 0x81).setReg 2 0x02).reg 1)) ∧ (1 : Reg) ≠ vF := by decide
theorem witness_RndMasksOneRequestedByte : (State.reset.supplyRandom [0xFF]).random.script = 0xFF :: [] ∧
    State.reset.random.script = [] := by decide
theorem witness_LdBStoresDecimalDigits : (indexed 0xFFD).i.toNat + 2 ≤ 0xFFF ∧ 0xFFF < (indexed 0xFFE).i.toNat + 2 := by decide
theorem witness_StoreRegsCopiesToMemory : (indexed 0xFF0).i.toNat + (15 : Reg).val ≤ 0xFFF ∧ (15 : Reg) ≤ 15 ∧
    0xFFF < (indexed 0xFF1).i.toNat + (15 : Reg).val := by decide
theorem witness_LoadRegsCopiesFromMemory : (indexed 0xFFF).i.toNat + (0 : Reg).val ≤ 0xFFF ∧ (0 : Reg) ≤ 0 ∧
    0xFFF < (indexed 0x1000).i.toNat + (0 : Reg).val := by decide
theorem witness_StoreThenLoadRestoresRegisters : (indexed 0xFF1).i.toNat + (14 : Reg).val ≤ 0xFFF ∧ (14 : Reg) ≤ 14 ∧
    (14 : Reg) < 15 := by decide
/-- Fx55 over both bytes of the last word of memory, and Fx33 from its own second byte over both bytes of the next word. -/
theorem witness_StoredCodeIsFetchedNext :
    (∃ s : State, s = ((State.reset.setPc 0xFFC).setI 0xFFE).withFetchWord 16 0xF155 ∧ s.status = .running ∧
      s.pc.toNat ≤ 0xFFC ∧ decodeWord s.fetchedWord = .ok (.storeRegs 1) ∧ s.i.toNat + (1 : Reg).val ≤ 0xFFF ∧
      s.i.toNat + (0 : Reg).val = s.pc.toNat + 2 ∧ s.i.toNat + (1 : Reg).val = s.pc.toNat + 3) ∧
    (∃ s : State, s = ((State.reset.setPc 0xFFC).setI 0xFFD).withFetchWord 16 0xFF33 ∧ s.status = .running ∧
      s.pc.toNat ≤ 0xFFC ∧ decodeWord s.fetchedWord = .ok (.ldB 15) ∧ s.i.toNat + 2 ≤ 0xFFF ∧
      s.i.toNat + 1 = s.pc.toNat + 2 ∧ s.i.toNat + 2 = s.pc.toNat + 3) :=
  ⟨⟨_, rfl, by decide⟩, ⟨_, rfl, by decide⟩⟩
theorem witness_ReadReturnsLastWrite : 0xFFF ≤ 0xFFF := by decide
theorem witness_CanonicalMemoriesThatReadAlikeAreEqual :
    Memory.wf defaultFont [(0x050, 0x00), (0xFFF, 0x01)] = true ∧
    Memory.wf defaultFont (Memory.write defaultFont [(0x050, 0x00)] 0xFFF 0x01) = true ∧
    ∀ a, a ≤ 0xFFF → Memory.read defaultFont [(0x050, 0x00), (0xFFF, 0x01)] a =
      Memory.read defaultFont (Memory.write defaultFont [(0x050, 0x00)] 0xFFF 0x01) a :=
  ⟨by decide, by decide, fun _ _ => rfl⟩
theorem witness_SkipOnKey : (15 : Key).val = ((State.reset.setReg 2 0x0F).reg 2).toNat ∧
    0x0F < ((State.reset.setReg 2 0x10).reg 2).toNat := by decide
theorem witness_LdVxKTakesLowestKeyOrWaits : ((State.reset.setKey 15 true).key 15 = true ∧
    ∀ j : Key, j < 15 → (State.reset.setKey 15 true).key j = false) ∧ ∀ k : Key, State.reset.key k = false := by decide
theorem witness_ConstructionState : State.reset = State.construct Params.default := rfl
theorem witness_LoadProgramCopiesImage : (List.replicate 3584 (0xFF : Byte)).length ≤ 3584 ∧ 3583 < (List.replicate 3584 (0xFF : Byte)).length ∧
    3584 < (List.replicate 3585 (0xFF : Byte)).length := by simp only [List.length_replicate]; decide
theorem witness_BootRunsFirstImageWord :
    (∃ t, (State.construct Params.default).loadProgram (0x12 :: 0x34 :: []) = .ok t) ∧
    decodeWord ((0x12 : Byte) ++ (0x34 : Byte)) = .ok (.jp 0x234) ∧
    ∃ t, (State.construct Params.default).loadProgram [0x12] = .ok t :=
  ⟨⟨_, rfl⟩, by decide, ⟨_, rfl⟩⟩
/-- A word that is no RND; a Faulted block that stands at an RND; a fetch whose first byte is an RND's and which faults. -/
theorem witness_RandomByteIsReadOnlyByRnd :
    (∀ x nn, decodeWord (ready 0x6000).fetchedWord ≠ .ok (.rnd x nn)) ∧
    (∃ s : State, s = { ready 0xC3FF with status := .faulted (recordAt200 .stackOverflow 0x2200 none) } ∧
      s.status ≠ .running ∧ decodeWord s.fetchedWord = .ok (.rnd 3 0xFF)) ∧
    (∃ s : State, s = (State.reset.setPc 0xFFF).storeByte 0xFFF 0xC3 ∧ ¬ s.pc.toNat ≤ 0xFFE ∧
      decodeWord s.fetchedWord = .ok (.rnd 3 0x00)) := by
  refine ⟨fun x nn h => ?_, ⟨_, rfl, by decide, by decide⟩, ⟨_, rfl, by decide, by decide⟩⟩
  have : decodeWord (ready 0x6000).fetchedWord = .ok (.ldByte 0 0) := by decide
  rw [this] at h
  cases h

end Sys2Proof.Tests
end

/-! ## What an instruction answers, held against the tables of Safety.lean -/

namespace Sys2Proof.Machine

variable {s t u : State} {i : Instr}

/-- The bounds check of the fault table, where every byte exists (R51). -/
theorem beyondMemory_eq_none {base n : Nat} (h : n = 0 ∨ base + n ≤ 0x1000) :
    faultOf.beyondMemory base n = none :=
  if_neg (by omega)

/-- The bounds check of the fault table, where a byte lies above 0xFFF: its information is the lowest such address (R223). -/
theorem beyondMemory_eq_some {base n : Nat} (hn : n ≠ 0) (h : 0x1000 < base + n) :
    faultOf.beyondMemory base n = some (.outOfBoundsAccess, some (max base 0x1000)) := by
  have hlowest : (if 0xFFF < base then base else 0x1000) = max base 0x1000 := by split <;> omega
  rw [faultOf.beyondMemory, if_pos (by omega), hlowest]

theorem frame_skipIf (s : State) (cond : Bool) : ChangesOnly (· = .pc) s (s.skipIf cond) := by
  rw [State.skipIf_eq]
  exact frame_setPc s _

/-- Two registers written one after the other (R150). -/
theorem frame_setReg_setReg (s : State) (x y : Reg) (a b : Byte) :
    ChangesOnly (fun p => p = .reg x ∨ p = .reg y) s ((s.setReg x a).setReg y b) :=
  (frame_setReg s x a).trans (frame_setReg _ y b)

/-- A call changes pc, sp and the slot at sp (R134). -/
theorem frame_call (s : State) (j : Fin 16) (w a : Word) (n : Fin 17) :
    ChangesOnly (fun p => p = .pc ∨ p = .sp ∨ p = .slot j) s { s with stack := s.stack.set j.val w, sp := n, pc := a } :=
  ((frame_push s j w n).trans (frame_setPc _ a)).mono fun _ => Or.symm

/-- What an instruction may answer by the tables: where the fault table gives it a fault, that fault raised, and else a next
state in which only the parts on its written-by list have changed (R95, R220; R20 to R30). -/
def FaultsOrWritesListed (i : Instr) (s : State) : Prop :=
  (∃ cause info, faultOf s i = some (cause, info) ∧ exec i s = raise cause info i s) ∨
  (faultOf s i = none ∧ ∃ t, exec i s = .next t ∧ ChangesOnly (writes s i) s t)

/-! The eight instructions that can fault. -/

theorem ret_faultsOrWritesListed (s : State) : FaultsOrWritesListed .ret s := by
  obtain ⟨hempty, e⟩ | ⟨hpos, e⟩ := execRet_cases s
  · exact .inl ⟨_, _, if_pos hempty, e⟩
  · exact .inr ⟨if_neg (by omega), _, e, frame_pop s _ _⟩

theorem call_faultsOrWritesListed (nnn : BitVec 12) (s : State) : FaultsOrWritesListed (.call nnn) s := by
  obtain ⟨hfull, e⟩ | ⟨hroom, e⟩ := execCall_cases nnn s
  · exact .inl ⟨_, _, if_pos hfull, e⟩
  · exact .inr ⟨if_neg (by omega), _, e, (frame_call s ⟨s.sp.val, hroom⟩ s.pc _ _).mono fun _ hp =>
      hp.imp_right (Or.imp_right fun hslot => ⟨⟨s.sp.val, hroom⟩, rfl, hslot⟩)⟩

theorem drw_faultsOrWritesListed (x y : Reg) (n : Nat) (s : State) : FaultsOrWritesListed (.drw x y n) s := by
  obtain ⟨hn, hbeyond, e⟩ | ⟨hin, e⟩ := execDrw_cases x y n s
  · exact .inl ⟨_, _, beyondMemory_eq_some hn hbeyond, e⟩
  · exact .inr ⟨beyondMemory_eq_none hin, _, e,
      ((frame_drawSprite s x y n).trans (frame_setReg _ vF _)).mono fun _ => Or.symm⟩

theorem skp_faultsOrWritesListed (x : Reg) (s : State) : FaultsOrWritesListed (.skp x) s := by
  obtain ⟨hbig, e⟩ | ⟨k, hk, e⟩ := execSkp_cases x s
  · exact .inl ⟨_, _, if_pos hbig, e⟩
  · exact .inr ⟨if_neg (by omega), _, e, frame_skipIf s _⟩

theorem sknp_faultsOrWritesListed (x : Reg) (s : State) : FaultsOrWritesListed (.sknp x) s := by
  obtain ⟨hbig, e⟩ | ⟨k, hk, e⟩ := execSknp_cases x s
  · exact .inl ⟨_, _, if_pos hbig, e⟩
  · exact .inr ⟨if_neg (by omega), _, e, frame_skipIf s _⟩

theorem ldB_faultsOrWritesListed (x : Reg) (s : State) : FaultsOrWritesListed (.ldB x) s := by
  obtain ⟨hbeyond, e⟩ | ⟨hin, e⟩ := execLdB_cases x s
  · exact .inl ⟨_, _, beyondMemory_eq_some (by omega) hbeyond, e⟩
  · exact .inr ⟨beyondMemory_eq_none (.inr hin), _, e, frame_storeBytes s s.i.toNat (decimalDigits (s.reg x))⟩

theorem storeRegs_faultsOrWritesListed (x : Reg) (s : State) : FaultsOrWritesListed (.storeRegs x) s := by
  obtain ⟨hbeyond, e⟩ | ⟨hin, e⟩ := execStoreRegs_cases x s
  · exact .inl ⟨_, _, beyondMemory_eq_some (by omega) hbeyond, e⟩
  · refine .inr ⟨beyondMemory_eq_none (.inr hin), _, e, (frame_storeBytes s _ _).mono ?_⟩
    rintro p ⟨k, hk, rfl⟩
    rw [State.regsUpTo_length] at hk
    exact ⟨⟨k, by omega⟩, Nat.le_of_lt_succ hk, rfl⟩

theorem loadRegs_faultsOrWritesListed (x : Reg) (s : State) : FaultsOrWritesListed (.loadRegs x) s := by
  obtain ⟨hbeyond, e⟩ | ⟨hin, e⟩ := execLoadRegs_cases x s
  · exact .inl ⟨_, _, beyondMemory_eq_some (by omega) hbeyond, e⟩
  · refine .inr ⟨beyondMemory_eq_none (.inr hin), _, e, (frame_setRegsFrom s _ _).mono ?_⟩
    rintro p ⟨r, -, hr, rfl⟩
    rw [State.bytesAt_length, Nat.zero_add] at hr
    exact ⟨r, Nat.le_of_lt_succ hr, rfl⟩

/-- Fx0A cannot fault; it writes Vx where a key is pressed and pc where none is (R204). -/
theorem ldVxK_faultsOrWritesListed (x : Reg) (s : State) : FaultsOrWritesListed (.ldVxK x) s := by
  obtain ⟨hnone, e⟩ | ⟨k, hk, -, e⟩ := execLdVxK_cases x s
  · exact .inr ⟨rfl, _, e, (frame_setPc s _).mono fun _ hp => .inr ⟨hp, hnone⟩⟩
  · exact .inr ⟨rfl, _, e, (frame_setReg s x _).mono fun _ hp => .inl ⟨hp, k, hk⟩⟩

/-- Every instruction in every state answers what the tables say. -/
theorem exec_faultsOrWritesListed (i : Instr) (s : State) : FaultsOrWritesListed i s := by
  cases i with
  | ret => exact ret_faultsOrWritesListed s
  | call nnn => exact call_faultsOrWritesListed nnn s
  | drw x y n => exact drw_faultsOrWritesListed x y n s
  | skp x => exact skp_faultsOrWritesListed x s
  | sknp x => exact sknp_faultsOrWritesListed x s
  | ldB x => exact ldB_faultsOrWritesListed x s
  | storeRegs x => exact storeRegs_faultsOrWritesListed x s
  | loadRegs x => exact loadRegs_faultsOrWritesListed x s
  | ldVxK x => exact ldVxK_faultsOrWritesListed x s
  | cls => exact .inr ⟨rfl, _, rfl, frame_setDisp s _⟩
  | jp nnn | jpV0 nnn => exact .inr ⟨rfl, _, rfl, frame_setPc s _⟩
  | seByte x nn | sneByte x nn => exact .inr ⟨rfl, _, rfl, frame_skipIf s _⟩
  | seReg x y | sneReg x y => exact .inr ⟨rfl, _, rfl, frame_skipIf s _⟩
  | ldByte x nn | addByte x nn => exact .inr ⟨rfl, _, rfl, frame_setReg s x _⟩
  | ldReg x y | orReg x y | andReg x y | xorReg x y => exact .inr ⟨rfl, _, rfl, frame_setReg s x _⟩
  | addReg x y => exact .inr ⟨rfl, _, rfl, frame_setReg_setReg s x vF _ _⟩
  | subReg x y | shr x y | subn x y | shl x y =>
    exact .inr ⟨rfl, _, rfl, (frame_setReg_setReg s vF x _ _).mono fun _ => Or.symm⟩
  | ldI nnn => exact .inr ⟨rfl, _, rfl, frame_setI s _⟩
  | addI x | ldF x => exact .inr ⟨rfl, _, rfl, frame_setI s _⟩
  | rnd x nn =>
    exact .inr ⟨rfl, _, rfl, ((frame_drawRandom s).trans (frame_setReg _ x _)).mono fun _ => Or.symm⟩
  | ldVxDt x => exact .inr ⟨rfl, _, rfl, frame_setReg s x _⟩
  | ldDtVx x => exact .inr ⟨rfl, _, rfl, frame_setDt s _⟩
  | ldStVx x => exact .inr ⟨rfl, _, rfl, frame_setSt s _⟩

/-- An instruction that raises no fault changes only the parts on its written-by list. -/
theorem exec_writesListed (hf : faultOf s i = none) (h : exec i s = .next t) : ChangesOnly (writes s i) s t := by
  obtain ⟨_, _, hf', -⟩ | ⟨-, u, e, hw⟩ := exec_faultsOrWritesListed i s
  · cases hf.symm.trans hf'
  · cases h.symm.trans e
    exact hw

/-- An instruction that leaves the block running has raised no fault. -/
theorem faultOf_eq_none_of_running (h : exec i s = .next t) (ht : t.status = .running) : faultOf s i = none := by
  obtain ⟨_, _, -, e⟩ | ⟨hf, -⟩ := exec_faultsOrWritesListed i s
  · cases h.symm.trans e
    cases ht
  · exact hf

theorem mayWrite_of_fault {f : FaultCause × Option Nat} (h : faultOf s i = some f) :
    mayWrite s i = fun p => p = .pc ∨ p = .status := by
  funext p
  rw [mayWrite, h]

theorem mayWrite_of_no_fault (h : faultOf s i = none) : mayWrite s i = writes s i := by
  funext p
  rw [mayWrite, h]

/-- Settles O18: an instruction either raises the fault of the table, whose frame is pc and status, or completes within its
written-by list. -/
theorem onlyListedWritersWrite : Obligations.OnlyListedWritersWrite := by
  intro i s t h
  obtain ⟨cause, info, hf, e⟩ | ⟨hf, u, e, hw⟩ := exec_faultsOrWritesListed i s
  · cases h.symm.trans e
    rw [mayWrite_of_fault hf]
    exact frame_takeFault s _ _ _ _
  · cases h.symm.trans e
    rw [mayWrite_of_no_fault hf]
    exact hw

end Sys2Proof.Machine

/-! ## Where a completed step leaves pc (R23) -/

namespace Sys2Proof.Machine

variable {s t u : State} {i : Instr}

@[simp] theorem State.finish_pc (s : State) : s.finish.pc = s.pc := by
  unfold State.finish
  split <;> rfl

@[simp] theorem State.finish_status (s : State) : s.finish.status = s.status := by
  unfold State.finish
  split <;> rfl

/-- A fetch within memory reads both bytes at or below 0xFFF (R91). -/
theorem State.pc_le_of_fetch (h : s.fetchOutOfBounds = none) : s.pc.toNat ≤ 0xFFE := by
  have := outOfBounds_eq_none_iff.mp h
  omega

section

variable (hpc : s.pc.toNat ≤ 0xFFE)
include hpc

/-- The advance of a fetch never wraps (R91, R100). -/
theorem State.advance_pc_toNat : s.advance.pc.toNat = s.pc.toNat + 2 := by
  rw [State.advance_eq, State.setPc_pc]
  bv_omega

/-- Nor does the skip after it, which is taken where the condition `P` of the table holds (R131, R100). -/
theorem State.skipIf_advance_pc_toNat {cond : Bool} {P : Prop} [Decidable P] (hcond : cond = true ↔ P) :
    (s.advance.skipIf cond).pc.toNat = if P then s.pc.toNat + 4 else s.pc.toNat + 2 := by
  have hadv := State.advance_pc_toNat hpc
  rw [State.skipIf_pc, if_congr hcond rfl rfl]
  split <;> bv_omega

/-- The rewind of a waiting Fx0A undoes the advance (R204). -/
theorem State.advance_pc_sub_two : s.advance.pc - 2 = s.pc := by
  rw [State.advance_eq, State.setPc_pc]
  bv_omega

/-- An instruction whose written-by list leaves pc out goes on to the next word. -/
theorem exec_pc_of_not_written (hf : faultOf s.advance i = none) (h : exec i s.advance = .next u)
    (hw : ¬ writes s.advance i .pc) : u.pc.toNat = s.pc.toNat + 2 := by
  have hkept : u.pc = s.advance.pc := exec_writesListed hf h .pc hw
  rw [hkept, State.advance_pc_toNat hpc]

end

/-- Whether the key that V[x] names is pressed (R200). -/
theorem State.namedKey_iff {x : Reg} {k : Key} (hk : k.val = (s.reg x).toNat) :
    (∃ j : Key, j.val = (s.reg x).toNat ∧ s.key j = true) ↔ s.key k = true := by
  constructor
  · rintro ⟨j, hj, hpressed⟩
    rwa [← Fin.ext (hj.trans hk.symm)]
  · exact fun hpressed => ⟨k, hk, hpressed⟩

theorem ret_pc_toNat (hf : faultOf s.advance .ret = none) (h : exec .ret s.advance = .next u) :
    u.pc.toNat = nextPc s .ret := by
  obtain ⟨hempty, -⟩ | ⟨hpos, e⟩ := execRet_cases s.advance
  · cases (if_pos hempty).symm.trans hf
  · cases h.symm.trans e
    rfl

theorem call_pc_toNat {nnn : BitVec 12} (hf : faultOf s.advance (.call nnn) = none)
    (h : exec (.call nnn) s.advance = .next u) : u.pc.toNat = nextPc s (.call nnn) := by
  obtain ⟨hfull, -⟩ | ⟨hroom, e⟩ := execCall_cases nnn s.advance
  · cases (if_pos hfull).symm.trans hf
  · cases h.symm.trans e
    exact addressOperand_toNat nnn

section

variable (hpc : s.pc.toNat ≤ 0xFFE)
include hpc

theorem skp_pc_toNat {x : Reg} (hf : faultOf s.advance (.skp x) = none) (h : exec (.skp x) s.advance = .next u) :
    u.pc.toNat = nextPc s (.skp x) := by
  obtain ⟨hbig, -⟩ | ⟨k, hk, e⟩ := execSkp_cases x s.advance
  · cases (if_pos hbig).symm.trans hf
  · cases h.symm.trans e
    exact State.skipIf_advance_pc_toNat hpc (State.namedKey_iff hk).symm

theorem sknp_pc_toNat {x : Reg} (hf : faultOf s.advance (.sknp x) = none) (h : exec (.sknp x) s.advance = .next u) :
    u.pc.toNat = nextPc s (.sknp x) := by
  obtain ⟨hbig, -⟩ | ⟨k, hk, e⟩ := execSknp_cases x s.advance
  · cases (if_pos hbig).symm.trans hf
  · cases h.symm.trans e
    have hnot : (!s.key k) = true ↔ ¬ ∃ j : Key, j.val = (s.reg x).toNat ∧ s.key j = true := by
      rw [State.namedKey_iff (s := s) hk, Bool.not_eq_true', Bool.not_eq_true]
    exact (State.skipIf_advance_pc_toNat hpc hnot).trans (ite_not _ _ _)

theorem ldVxK_pc_toNat {x : Reg} (h : exec (.ldVxK x) s.advance = .next u) :
    u.pc.toNat = nextPc s (.ldVxK x) := by
  obtain ⟨hnone, e⟩ | ⟨k, hk, -, e⟩ := execLdVxK_cases x s.advance
  · cases h.symm.trans e
    have hnot : ¬ ∃ k : Key, s.key k = true := fun ⟨k, hk⟩ => Bool.false_ne_true ((hnone k).symm.trans hk)
    rw [State.setPc_pc, State.advance_pc_sub_two hpc]
    exact (if_neg hnot).symm
  · cases h.symm.trans e
    have hsome : ∃ k : Key, s.key k = true := ⟨k, hk⟩
    rw [State.setReg_pc, State.advance_pc_toNat hpc]
    exact (if_pos hsome).symm

/-- An instruction that raises no fault leaves pc at the number in the table of R23: the transfers of control one by one, and
every other instruction by its frame. -/
theorem exec_pc_toNat (hf : faultOf s.advance i = none) (h : exec i s.advance = .next u) :
    u.pc.toNat = nextPc s i := by
  cases i with
  | ret => exact ret_pc_toNat hf h
  | call nnn => exact call_pc_toNat hf h
  | skp x => exact skp_pc_toNat hpc hf h
  | sknp x => exact sknp_pc_toNat hpc hf h
  | ldVxK x => exact ldVxK_pc_toNat hpc h
  | jp nnn =>
    cases h
    exact addressOperand_toNat nnn
  | jpV0 nnn =>
    cases h
    exact s.offsetTarget_toNat nnn
  | seByte x nn | seReg x y =>
    cases h
    exact State.skipIf_advance_pc_toNat hpc beq_iff_eq
  | sneByte x nn | sneReg x y =>
    cases h
    exact (State.skipIf_advance_pc_toNat hpc bne_iff_ne).trans (ite_not _ _ _)
  | _ => exact exec_pc_of_not_written hpc hf h (by simp [writes])

end

/-- Settles O14: the step is an instruction's that has raised no fault, or the no-operation of R94; the tick leaves pc. -/
theorem pcAfterStepByTheTable : Obligations.PcAfterStepByTheTable := by
  rintro s t ⟨hstep, hrunning⟩
  obtain ⟨-, ⟨a, -, rfl⟩ | ⟨hfetch, hword, -, rfl⟩ | ⟨-, -, rfl⟩ |
    ⟨hfetch, i, u, hword, hexec, rfl⟩⟩ := step_cases hstep
  · cases hrunning
  · rw [hword, State.finish_pc]
    exact State.advance_pc_toNat (State.pc_le_of_fetch hfetch)
  · cases hrunning
  · rw [hword, State.finish_pc]
    rw [State.finish_status] at hrunning
    exact exec_pc_toNat (State.pc_le_of_fetch hfetch) (faultOf_eq_none_of_running hexec hrunning) hexec

end Sys2Proof.Machine

/-! ## What no instruction reads: ST and the dead slots of the stack (R28, R33) -/

namespace Sys2Proof.Machine

variable {s t u : State} {i : Instr}

theorem execRet_of_empty (h : s.sp.val = 0) : execRet s = raise .stackUnderflow none .ret s := by
  rw [execRet, State.popPc, dif_neg (by omega)]

theorem execRet_of_pos (h : 0 < s.sp.val) : execRet s =
    .next { s with sp := ⟨s.sp.val - 1, by omega⟩, pc := s.stack[s.sp.val - 1]'(by omega) } := by
  rw [execRet, State.popPc, dif_pos h]

theorem execCall_of_full (nnn : BitVec 12) (h : s.sp.val = 16) :
    execCall nnn s = raise .stackOverflow none (.call nnn) s := by
  rw [execCall, State.pushPc, dif_neg (by omega)]

theorem execCall_of_room (nnn : BitVec 12) (h : s.sp.val < 16) : execCall nnn s =
    .next { s with stack := s.stack.set s.sp.val s.pc, sp := ⟨s.sp.val + 1, Nat.succ_lt_succ h⟩,
                   pc := addressOperand nnn } := by
  rw [execCall, State.pushPc, dif_pos h]
  rfl

/-- Another value in ST and in the stack. -/
def State.mapUnread (f : Byte → Byte) (g : Vector Word 16 → Vector Word 16) (s : State) : State :=
  { s with st := f s.st, stack := g s.stack }

/-- The instructions that write a stack slot or ST (R25, R28). -/
def writesStackOrSt : Instr → Bool
  | .call _ | .ldStVx _ => true
  | _ => false

/-- Another value in the dead slots alone: those below sp stay (R33). -/
def KeepsLiveSlots (g : Vector Word 16 → Vector Word 16) (s : State) : Prop :=
  ∀ (k : Nat) (hk : k < 16), k < s.sp.val → (g s.stack)[k] = s.stack[k]

/-- An answer with its next state, if any, changed. -/
def mapNext (F : State → State) : Result → Result
  | .next t => .next (F t)
  | .fault r => .fault r
  | .refused m => .refused m

section

variable (f : Byte → Byte) (g : Vector Word 16 → Vector Word 16) (s : State)

theorem State.skipIf_mapUnread (cond : Bool) :
    (s.mapUnread f g).skipIf cond = (s.skipIf cond).mapUnread f g := by
  cases cond <;> rfl

theorem State.storeBytes_mapUnread (base : Nat) (bs : List Byte) :
    (s.mapUnread f g).storeBytes base bs = (s.storeBytes base bs).mapUnread f g := by
  induction bs generalizing s base with
  | nil => rfl
  | cons b bs ih => exact ih (s.storeByte base b) (base + 1)

theorem State.setRegsFrom_mapUnread (k : Nat) (bs : List Byte) :
    (s.mapUnread f g).setRegsFrom k bs = (s.setRegsFrom k bs).mapUnread f g := by
  induction bs generalizing s k with
  | nil => rfl
  | cons b bs ih =>
    rw [State.setRegsFrom, State.setRegsFrom]
    split
    · next hk => exact ih (s.setReg ⟨k, hk⟩ b) (k + 1)
    · rfl

theorem execRet_mapUnread (hlive : KeepsLiveSlots g s) :
    execRet (s.mapUnread f g) = mapNext (State.mapUnread f g) (execRet s) := by
  obtain ⟨hempty, e⟩ | ⟨hpos, e⟩ := execRet_cases s
  · rw [e, execRet_of_empty (s := s.mapUnread f g) hempty]
    rfl
  · rw [e, execRet_of_pos (s := s.mapUnread f g) hpos]
    have hslot := hlive (s.sp.val - 1) (by omega) (by omega)
    exact congrArg (fun a => Host.Outcome.next
      (State.mapUnread f g { s with sp := ⟨s.sp.val - 1, by omega⟩, pc := a })) hslot

theorem execCall_mapUnread (nnn : BitVec 12)
    (hpush : ∀ h : s.sp.val < 16, g (s.stack.set s.sp.val s.pc) = (g s.stack).set s.sp.val s.pc) :
    execCall nnn (s.mapUnread f g) = mapNext (State.mapUnread f g) (execCall nnn s) := by
  obtain ⟨hfull, e⟩ | ⟨hroom, e⟩ := execCall_cases nnn s
  · rw [e, execCall_of_full nnn (s := s.mapUnread f g) hfull]
    rfl
  · rw [e, execCall_of_room nnn (s := s.mapUnread f g) hroom]
    exact congrArg (fun k => Host.Outcome.next
      { s with st := f s.st, stack := k, sp := ⟨s.sp.val + 1, Nat.succ_lt_succ hroom⟩, pc := addressOperand nnn })
      (hpush hroom).symm

theorem State.indexOutOfBounds_mapUnread (n : Nat) :
    (s.mapUnread f g).indexOutOfBounds n = s.indexOutOfBounds n := rfl

theorem State.keyOperand_mapUnread (x : Reg) : (s.mapUnread f g).keyOperand x = s.keyOperand x := rfl

theorem State.lowestKey_mapUnread : (s.mapUnread f g).lowestKey = s.lowestKey := rfl

theorem execDrw_mapUnread (x y : Reg) (n : Nat) :
    execDrw x y n (s.mapUnread f g) = mapNext (State.mapUnread f g) (execDrw x y n s) := by
  rw [execDrw, execDrw, State.indexOutOfBounds_mapUnread]
  cases s.indexOutOfBounds n <;> rfl

theorem execSkp_mapUnread (x : Reg) :
    execSkp x (s.mapUnread f g) = mapNext (State.mapUnread f g) (execSkp x s) := by
  rw [execSkp, execSkp, State.keyOperand_mapUnread]
  cases s.keyOperand x with
  | some k => exact congrArg Host.Outcome.next (s.skipIf_mapUnread f g _)
  | none => rfl

theorem execSknp_mapUnread (x : Reg) :
    execSknp x (s.mapUnread f g) = mapNext (State.mapUnread f g) (execSknp x s) := by
  rw [execSknp, execSknp, State.keyOperand_mapUnread]
  cases s.keyOperand x with
  | some k => exact congrArg Host.Outcome.next (s.skipIf_mapUnread f g _)
  | none => rfl

theorem execLdVxK_mapUnread (x : Reg) :
    execLdVxK x (s.mapUnread f g) = mapNext (State.mapUnread f g) (execLdVxK x s) := by
  rw [execLdVxK, execLdVxK, State.lowestKey_mapUnread]
  cases s.lowestKey <;> rfl

theorem execLdB_mapUnread (x : Reg) :
    execLdB x (s.mapUnread f g) = mapNext (State.mapUnread f g) (execLdB x s) := by
  rw [execLdB, execLdB, State.indexOutOfBounds_mapUnread]
  cases s.indexOutOfBounds 3 with
  | some a => rfl
  | none => exact congrArg Host.Outcome.next (s.storeBytes_mapUnread f g _ _)

theorem execStoreRegs_mapUnread (x : Reg) :
    execStoreRegs x (s.mapUnread f g) = mapNext (State.mapUnread f g) (execStoreRegs x s) := by
  rw [execStoreRegs, execStoreRegs, State.indexOutOfBounds_mapUnread]
  cases s.indexOutOfBounds (x.val + 1) with
  | some a => rfl
  | none => exact congrArg Host.Outcome.next (s.storeBytes_mapUnread f g _ _)

theorem execLoadRegs_mapUnread (x : Reg) :
    execLoadRegs x (s.mapUnread f g) = mapNext (State.mapUnread f g) (execLoadRegs x s) := by
  rw [execLoadRegs, execLoadRegs, State.indexOutOfBounds_mapUnread]
  cases s.indexOutOfBounds (x.val + 1) with
  | some a => rfl
  | none => exact congrArg Host.Outcome.next (s.setRegsFrom_mapUnread f g _ _)

/-- An instruction that writes neither the stack nor ST does the same whatever ST and the dead slots hold. -/
theorem exec_mapUnread (hlive : KeepsLiveSlots g s) (hi : writesStackOrSt i = false) :
    exec i (s.mapUnread f g) = mapNext (State.mapUnread f g) (exec i s) := by
  cases i with
  | call nnn | ldStVx x => cases hi
  | ret => exact execRet_mapUnread f g s hlive
  | seByte x nn | sneByte x nn | seReg x y | sneReg x y =>
    exact congrArg Host.Outcome.next (s.skipIf_mapUnread f g _)
  | drw x y n => exact execDrw_mapUnread f g s x y n
  | skp x => exact execSkp_mapUnread f g s x
  | sknp x => exact execSknp_mapUnread f g s x
  | ldVxK x => exact execLdVxK_mapUnread f g s x
  | ldB x => exact execLdB_mapUnread f g s x
  | storeRegs x => exact execStoreRegs_mapUnread f g s x
  | loadRegs x => exact execLoadRegs_mapUnread f g s x
  | _ => rfl

end

end Sys2Proof.Machine

/-! ## The step of a running block, phase by phase (R90 to R94) -/

namespace Sys2Proof.Machine

variable {s t u : State} {i : Instr}

section

variable (hrun : s.status = .running)
include hrun

theorem step_eq_runCycle : step s = runCycle s := by
  rw [step, stepBlock, hrun]

theorem step_of_fetch_beyond {a : Nat} (hfetch : s.fetchOutOfBounds = some a) :
    step s = .next (s.takeFault .outOfBoundsAccess s.pc none (some a)) := by
  rw [step_eq_runCycle hrun, runCycle, hfetch]

theorem step_of_fetch (hfetch : s.fetchOutOfBounds = none) : step s = runWord s.fetchedWord s := by
  rw [step_eq_runCycle hrun, runCycle, hfetch]

theorem step_of_decoded (hfetch : s.fetchOutOfBounds = none) (hword : decodeWord s.fetchedWord = .ok i) :
    step s = completeStep (exec i s.advance) := by
  rw [step_of_fetch hrun hfetch, runWord, hword]

theorem step_of_rejected {e : IllegalWord} (hfetch : s.fetchOutOfBounds = none)
    (hword : decodeWord s.fetchedWord = .error e) : step s = rejectWord e s.fetchedWord s := by
  rw [step_of_fetch hrun hfetch, runWord, hword]

end

section

variable {f : Byte → Byte} {g : Vector Word 16 → Vector Word 16} {R : State → State → Prop}

/-- The end of a step keeps a relation that the tick keeps, between states that both run or have both faulted (R95, R96). -/
theorem finish_related {s s' : State} (hstatus : s'.status = s.status) (hsame : R s s') (htick : R s.tick s'.tick) :
    R s.finish s'.finish := by
  cases hs : s.status with
  | running => rwa [State.finish_running hs, State.finish_running (hstatus.trans hs)]
  | faulted rec => rwa [State.finish_faulted hs, State.finish_faulted (hstatus.trans hs)]

/-- Two blocks that differ in ST and the dead stack slots alone are related by `R` after a step, where `R` holds of any two
states that `State.mapUnread` relates and is kept by the end of a step and by the instructions that write the stack or ST. -/
theorem step_mapUnread (hlive : KeepsLiveSlots g s) (hunread : ∀ u, R u (u.mapUnread f g))
    (hfinish : ∀ {u u'}, R u u' → R u.finish u'.finish)
    (hwriter : ∀ {i u}, writesStackOrSt i = true → exec i s.advance = .next u →
      ∃ u', exec i (s.advance.mapUnread f g) = .next u' ∧ R u u')
    (h : step s = .next t) : ∃ t', step (s.mapUnread f g) = .next t' ∧ R t t' := by
  obtain ⟨hrun, ⟨a, hfetch, rfl⟩ | ⟨hfetch, hword, hp, rfl⟩ | ⟨hfetch, ⟨e, hword, hp⟩, rfl⟩ |
    ⟨hfetch, i, u, hword, hexec, rfl⟩⟩ := step_cases h
  · exact ⟨_, step_of_fetch_beyond (s := s.mapUnread f g) hrun hfetch, hunread _⟩
  · exact ⟨_, (step_of_rejected (s := s.mapUnread f g) hrun hfetch hword).trans (if_pos ⟨rfl, hp⟩),
      hfinish (hunread s.advance)⟩
  · exact ⟨_, (step_of_rejected (s := s.mapUnread f g) hrun hfetch hword).trans (if_neg hp), hunread _⟩
  · have hrelated : ∃ u', exec i (s.advance.mapUnread f g) = .next u' ∧ R u u' := by
      cases hi : writesStackOrSt i with
      | true => exact hwriter hi hexec
      | false => exact ⟨_, by rw [exec_mapUnread f g s.advance hlive hi, hexec, mapNext], hunread u⟩
    obtain ⟨u', hexec', hR⟩ := hrelated
    exact ⟨u'.finish,
      (step_of_decoded (s := s.mapUnread f g) hrun hfetch hword).trans (congrArg completeStep hexec'), hfinish hR⟩

end

/-! ## ST (R28) -/

/-- The two states agree in every part but ST. -/
def SameButSt (s s' : State) : Prop := ∃ b, s' = s.setSt b

theorem SameButSt.finish {s s' : State} (h : SameButSt s s') : SameButSt s.finish s'.finish := by
  obtain ⟨b, rfl⟩ := h
  exact finish_related rfl ⟨b, rfl⟩ ⟨tickTimer b, rfl⟩

/-- CALL keeps ST, and Fx18 overwrites it. -/
theorem exec_writer_sameButSt (hi : writesStackOrSt i = true) (h : exec i s = .next u) (b : Byte) :
    ∃ u', exec i (s.mapUnread (fun _ => b) id) = .next u' ∧ SameButSt u u' := by
  cases i with
  | call nnn =>
    have hcall := execCall_mapUnread (fun _ => b) id s nnn fun _ => rfl
    exact ⟨_, hcall.trans (congrArg (mapNext _) h), b, rfl⟩
  | ldStVx x =>
    cases h
    exact ⟨_, rfl, s.reg x, rfl⟩
  | _ => cases hi

/-- Settles O19: another value in ST is one `State.mapUnread` that leaves the stack, carried through the step. -/
theorem soundTimerIsNeverRead : Obligations.SoundTimerIsNeverRead := by
  intro s t b h
  obtain ⟨_, hstep, b', rfl⟩ := step_mapUnread (f := fun _ => b) (g := id) (R := SameButSt) (fun _ _ _ => rfl)
    (fun _ => ⟨b, rfl⟩) SameButSt.finish (fun hi hexec => exec_writer_sameButSt hi hexec b) h
  exact ⟨b', hstep⟩

/-! ## The dead slots of the stack (R33) -/

/-- The two states agree in every part but the stack slot `j`. -/
def SameButSlot (j : Fin 16) (s s' : State) : Prop := ∃ w, s' = s.mapUnread id fun k => k.set j.val w

theorem SameButSlot.finish {j : Fin 16} {s s' : State} (h : SameButSlot j s s') : SameButSlot j s.finish s'.finish := by
  obtain ⟨w, rfl⟩ := h
  exact finish_related rfl ⟨w, rfl⟩ ⟨w, rfl⟩

/-- A slot at or above sp is no live one. -/
theorem keepsLiveSlots_set {j : Fin 16} (hj : s.sp.val ≤ j.val) (w : Word) :
    KeepsLiveSlots (fun k => k.set j.val w) s :=
  fun _ _ hk => Vector.getElem_set_ne _ _ (by omega)

/-- Two writes to a vector in the other order: where both go to one place the last one stays. -/
theorem set_set_swap {α : Type} {n : Nat} (v : Vector α n) {j k : Nat} (hj : j < n) (hk : k < n) (a b : α) :
    ∃ a', (v.set j a).set k b = (v.set k b).set j a' := by
  by_cases h : j = k
  · subst h
    exact ⟨b, by rw [Vector.set_set, Vector.set_set]⟩
  · exact ⟨a, Vector.set_comm _ _ h⟩

/-- A call into the very slot overwrites what it held, and a call into another leaves it (R134). -/
theorem call_sameButSlot {j : Fin 16} {nnn : BitVec 12} (hj : s.sp.val ≤ j.val) (h : execCall nnn s = .next u) (w : Word) :
    ∃ u', execCall nnn (s.mapUnread id fun k => k.set j.val w) = .next u' ∧ SameButSlot j u u' := by
  have hroom : s.sp.val < 16 := by omega
  cases h.symm.trans (execCall_of_room nnn hroom)
  obtain ⟨w', hswap⟩ := set_set_swap s.stack j.isLt hroom w s.pc
  exact ⟨_, execCall_of_room nnn (s := s.mapUnread id fun k => k.set j.val w) hroom, w',
    congrArg (fun k => { s with stack := k, sp := ⟨s.sp.val + 1, Nat.succ_lt_succ hroom⟩, pc := addressOperand nnn }) hswap⟩

theorem exec_writer_sameButSlot {j : Fin 16} (hj : s.sp.val ≤ j.val) (hi : writesStackOrSt i = true)
    (h : exec i s = .next u) (w : Word) :
    ∃ u', exec i (s.mapUnread id fun k => k.set j.val w) = .next u' ∧ SameButSlot j u u' := by
  cases i with
  | call nnn => exact call_sameButSlot hj h w
  | ldStVx x =>
    cases h
    exact ⟨_, rfl, w, rfl⟩
  | _ => cases hi

/-- Settles O20: another value in a slot at or above sp is one `State.mapUnread` that keeps the live slots, carried through
the step. -/
theorem deadStackSlotsAreNeverRead : Obligations.DeadStackSlotsAreNeverRead := by
  intro s t j w hj h
  obtain ⟨_, hstep, w', rfl⟩ := step_mapUnread (f := id) (g := fun k => k.set j.val w) (R := SameButSlot j)
    (keepsLiveSlots_set hj w) (fun _ => ⟨w, rfl⟩) SameButSlot.finish
    (fun hi hexec => exec_writer_sameButSlot (s := s.advance) hj hi hexec w) h
  exact ⟨w', hstep⟩

end Sys2Proof.Machine

/-! ## Memory reads, and the canonical form they determine (R50, R56) -/

namespace Sys2Proof.Machine

/-- Settles O47: an address up to 0xFFF exists, so the store takes place. -/
theorem readReturnsLastWrite : Obligations.ReadReturnsLastWrite := by
  intro s a k b ha
  have hexists : a < Config.memSize := Nat.lt_succ_of_le ha
  rw [State.byteAt_storeByte]
  by_cases hk : k = a
  · rw [if_pos ⟨hk.symm, hexists⟩, if_pos hk]
  · rw [if_neg fun h => hk h.1.symm, if_neg hk]

variable {font : Font} {m n : Memory} {j k lo : Nat} {b : Byte}

theorem Memory.wfFrom_cons_iff : Memory.wfFrom font lo ((k, b) :: m) = true ↔
    lo ≤ k ∧ k < Config.memSize ∧ b ≠ unlistedByte font k ∧ Memory.wfFrom font (k + 1) m = true := by
  simp [Memory.wfFrom, and_assoc]

theorem Memory.read_cons (font : Font) (m : Memory) (k a : Nat) (b : Byte) :
    Memory.read font ((k, b) :: m) a = if k = a then b else Memory.read font m a := by
  rw [Memory.read, Memory.find]
  split <;> rfl

/-- The first address a canonical memory lists may serve as its lowest. -/
theorem Memory.wfFrom_first (h : Memory.wfFrom font lo ((k, b) :: m) = true) : Memory.wfFrom font k ((k, b) :: m) = true := by
  obtain ⟨-, hlt, hb, htail⟩ := Memory.wfFrom_cons_iff.mp h
  exact Memory.wfFrom_cons_iff.mpr ⟨le_rfl, hlt, hb, htail⟩

theorem Memory.read_first_ne_unlisted (h : Memory.wfFrom font lo ((k, b) :: m) = true) :
    Memory.read font ((k, b) :: m) k ≠ unlistedByte font k := by
  obtain ⟨-, -, hb, -⟩ := Memory.wfFrom_cons_iff.mp h
  rwa [Memory.read_cons, if_pos rfl]

/-- Below the lowest address a canonical memory may list, it reads as at reset. -/
theorem Memory.read_of_lt : ∀ {m : Memory} {lo a : Nat}, Memory.wfFrom font lo m = true → a < lo →
    Memory.read font m a = unlistedByte font a
  | [], _, _, _, _ => rfl
  | (k, b) :: m, lo, a, h, ha => by
    obtain ⟨hk, -, -, htail⟩ := Memory.wfFrom_cons_iff.mp h
    rw [Memory.read_cons, if_neg (by omega)]
    exact Memory.read_of_lt htail (by omega)

/-- Canonical lists that agree at the first address of one do not begin above it in the other. -/
theorem Memory.lo_le_first_of_read_eq (hm : Memory.wfFrom font lo ((k, b) :: m) = true)
    (hn : Memory.wfFrom font j n = true) (hread : Memory.read font ((k, b) :: m) k = Memory.read font n k) : j ≤ k := by
  by_contra hkj
  exact Memory.read_first_ne_unlisted hm (hread.trans (Memory.read_of_lt hn (by omega)))

/-- Two canonical lists that read alike from `lo` upward begin with the same entry, since neither begins above the other, and
what follows reads alike above it. -/
theorem Memory.eq_of_read_eq : ∀ {m n : Memory} {lo : Nat}, Memory.wfFrom font lo m = true → Memory.wfFrom font lo n = true →
    (∀ a, lo ≤ a → a < Config.memSize → Memory.read font m a = Memory.read font n a) → m = n
  | [], [], _, _, _, _ => rfl
  | [], (k, b) :: n, _, _, hn, h => by
    obtain ⟨hlo, hk, -, -⟩ := Memory.wfFrom_cons_iff.mp hn
    exact absurd (h k hlo hk).symm (Memory.read_first_ne_unlisted hn)
  | (k, b) :: m, [], _, hm, _, h => by
    obtain ⟨hlo, hk, -, -⟩ := Memory.wfFrom_cons_iff.mp hm
    exact absurd (h k hlo hk) (Memory.read_first_ne_unlisted hm)
  | (k, b) :: m, (j, c) :: n, lo, hm, hn, h => by
    obtain ⟨hlok, hk, -, hmtail⟩ := Memory.wfFrom_cons_iff.mp hm
    obtain ⟨hloj, hj, -, hntail⟩ := Memory.wfFrom_cons_iff.mp hn
    have hjk : j ≤ k := Memory.lo_le_first_of_read_eq hm (Memory.wfFrom_first hn) (h k hlok hk)
    have hkj : k ≤ j := Memory.lo_le_first_of_read_eq hn (Memory.wfFrom_first hm) (h j hloj hj).symm
    obtain rfl : k = j := Nat.le_antisymm hkj hjk
    have hbyte : b = c := by simpa [Memory.read_cons] using h k hlok hk
    have htail : m = n := Memory.eq_of_read_eq hmtail hntail fun a hka ha => by
      have hread := h a (by omega) ha
      rwa [Memory.read_cons, Memory.read_cons, if_neg (by omega), if_neg (by omega)] at hread
    rw [hbyte, htail]

/-- Settles O48, by induction on the two lists with the lowest address they may list kept general. -/
theorem canonicalMemoriesThatReadAlikeAreEqual : Obligations.CanonicalMemoriesThatReadAlikeAreEqual :=
  fun _ _ _ hm hn h => Memory.eq_of_read_eq hm hn fun a _ ha => h a (Nat.le_of_lt_succ ha)

end Sys2Proof.Machine

/-! ## Memory and fetch: a fetch above 0xFFF, and code stored where the next fetch reads (R53, R61) -/

namespace Sys2Proof.Machine

variable {s : State} {i : Instr} {x : Reg} {bs : List Byte}

/-- Settles O7: of the two bytes fetched at least one lies above 0xFFF, and taking the fault leaves pc where it is. -/
theorem fetchBeyondMemoryFaults : Obligations.FetchBeyondMemoryFaults := by
  intro s hrun hpc
  have hfetch : s.fetchOutOfBounds = some (max s.pc.toNat 0x1000) :=
    outOfBounds_eq_some_iff.mpr ⟨by omega, by omega, rfl⟩
  have hlowest : (if s.pc.toNat = 0xFFF then 0x1000 else s.pc.toNat) = max s.pc.toNat 0x1000 := by
    split <;> omega
  rw [hlowest]
  exact step_of_fetch_beyond hrun hfetch

/-- Fx55 with all its bytes in memory stores V0 to Vx (R184). -/
theorem execStoreRegs_of_inBounds (h : s.i.toNat + x.val ≤ 0xFFF) :
    execStoreRegs x s = .next (s.storeBytes s.i.toNat (s.regsUpTo x)) := by
  obtain ⟨hbeyond, -⟩ | ⟨-, e⟩ := execStoreRegs_cases x s
  · omega
  · exact e

/-- Fx33 with all its bytes in memory stores the digits of Vx (R183). -/
theorem execLdB_of_inBounds (h : s.i.toNat + 2 ≤ 0xFFF) :
    execLdB x s = .next (s.storeBytes s.i.toNat (decimalDigits (s.reg x))) := by
  obtain ⟨hbeyond, -⟩ | ⟨-, e⟩ := execLdB_cases x s
  · omega
  · exact e

/-- The digits of R183 as numbers, each with its place. -/
theorem decimalDigits_getD_toNat (v : Byte) :
    ∀ d ∈ [(0, v.toNat / 100), (1, v.toNat / 10 % 10), (2, v.toNat % 10)],
      d.1 < (decimalDigits v).length ∧ ((decimalDigits v).getD d.1 0).toNat = d.2 := by
  have := v.isLt
  simp [decimalDigits]
  omega

/-- A byte of a stored run that exists reads as stored (R55, R56). -/
theorem State.byteAt_storeBytes_of_mem (s : State) {base k : Nat} (hk : k < bs.length) (hin : base + k ≤ 0xFFF) :
    (s.storeBytes base bs).byteAt (base + k) = bs.getD k 0 := by
  have hexists : base + k < Config.memSize := Nat.lt_succ_of_le hin
  rw [State.byteAt_storeBytes, if_pos ⟨by omega, by omega, hexists⟩, Nat.add_sub_cancel_left]

/-- Where a decoded instruction does nothing but store a run of bytes, the next fetch reads those of them that stand at the
two bytes after the instruction: there is nothing between memory and the fetch (R61, R273). -/
theorem step_fetches_storedBytes {base : Nat} (hrun : s.status = .running) (hpc : s.pc.toNat ≤ 0xFFC)
    (hword : decodeWord s.fetchedWord = .ok i) (hexec : exec i s.advance = .next (s.advance.storeBytes base bs)) :
    ∃ (t : State) (hi lo : Byte), step s = .next t ∧ t.status = .running ∧ t.pc = s.pc + 2 ∧ t.fetchedWord = hi ++ lo ∧
      (∀ k < bs.length, base + k = s.pc.toNat + 2 → hi = bs.getD k 0) ∧
      (∀ k < bs.length, base + k = s.pc.toNat + 3 → lo = bs.getD k 0) := by
  have hfetch : s.fetchOutOfBounds = none := outOfBounds_eq_none_iff.mpr (.inr (by omega))
  have hadv : (s.advance.storeBytes base bs).pc.toNat = s.pc.toNat + 2 := by
    rw [State.storeBytes_pc, State.advance_pc_toNat (by omega)]
  have hstatus : (s.advance.storeBytes base bs).status = .running := by rw [State.storeBytes_status]; exact hrun
  refine ⟨(s.advance.storeBytes base bs).tick, (s.advance.storeBytes base bs).byteAt (s.pc.toNat + 2),
    (s.advance.storeBytes base bs).byteAt (s.pc.toNat + 3), ?_, hstatus, ?_, ?_, fun k hk hat => ?_, fun k hk hat => ?_⟩
  · rw [step_of_decoded hrun hfetch hword, hexec, completeStep, State.finish_running hstatus]
  · rw [State.tick_pc, State.storeBytes_pc, State.advance_eq, State.setPc_pc]
  · rw [State.fetchedWord, State.tick_pc, hadv]
    rfl
  · rw [← hat, State.byteAt_storeBytes_of_mem _ hk (by omega)]
  · rw [← hat, State.byteAt_storeBytes_of_mem _ hk (by omega)]

/-- Settles O46: both instructions store one run of bytes at I and do nothing else. -/
theorem storedCodeIsFetchedNext : Obligations.StoredCodeIsFetchedNext := by
  intro x s hrun hpc
  constructor
  · intro hword hin
    obtain ⟨t, hi, lo, hstep, hstatus, hnext, hfetched, hhi, hlo⟩ := step_fetches_storedBytes hrun hpc hword
      (execStoreRegs_of_inBounds (s := s.advance) hin)
    have hplace : ∀ r : Reg, r ≤ x → r.val < (s.advance.regsUpTo x).length := by
      intro r hr
      rw [State.regsUpTo_length]
      exact Nat.lt_succ_of_le hr
    have hstored : ∀ r : Reg, r ≤ x → (s.advance.regsUpTo x).getD r.val 0 = s.reg r := s.advance.regsUpTo_getD x
    exact ⟨t, hi, lo, hstep, hstatus, hnext, hfetched,
      fun r hr hat => (hhi r.val (hplace r hr) hat).trans (hstored r hr),
      fun r hr hat => (hlo r.val (hplace r hr) hat).trans (hstored r hr)⟩
  · intro hword hin
    obtain ⟨t, hi, lo, hstep, hstatus, hnext, hfetched, hhi, hlo⟩ := step_fetches_storedBytes hrun hpc hword
      (execLdB_of_inBounds (s := s.advance) hin)
    refine ⟨t, hi, lo, hstep, hstatus, hnext, hfetched, fun d hd => ?_⟩
    obtain ⟨hplace, hdigit⟩ := decimalDigits_getD_toNat (s.reg x) d hd
    exact ⟨fun hat => (congrArg BitVec.toNat (hhi d.1 hplace hat)).trans hdigit,
      fun hat => (congrArg BitVec.toNat (hlo d.1 hplace hat)).trans hdigit⟩

end Sys2Proof.Machine

/-! ## The decoder and the encoder are each other's inverse (R52, R70, R73, R74) -/

namespace Sys2Proof

variable {w : Word} {i : Instr} {op : BitVec 4}

/-- The decoder reads the fields of a form and dispatches on them to the instruction whose form it is (R73, R74). -/
theorem decodeWord_encode (h : i.wellFormed = true) : decodeWord (encode i) = .ok i := by
  cases i with
  | cls | ret => rfl
  | drw x y n =>
    have hn : n % 16 = n := Nat.mod_eq_of_lt (Nat.lt_succ_of_le (of_decide_eq_true h))
    simp [encode, decodeWord, hn]
  | jp | call | ldI | jpV0 | seByte | sneByte | ldByte | addByte | rnd | seReg | sneReg => simp [encode, decodeWord]
  | ldReg | orReg | andReg | xorReg | addReg | subReg | shr | subn | shl => simp [encode, decodeWord, decodeFamily8]
  | skp | sknp => simp [encode, decodeWord, decodeFamilyE]
  | ldVxDt | ldVxK | ldDtVx | ldStVx | addI | ldF | ldB | storeRegs | loadRegs =>
    simp [encode, decodeWord, decodeFamilyF]

/-- The decoder takes two bytes and leaves the rest (R52, R70). -/
theorem decode_eq_ok_iff {hi lo : Byte} {rest rest' : List Byte} :
    decode (hi :: lo :: rest) = .ok (i, rest') ↔ decodeWord (wordOfBytes hi lo) = .ok i ∧ rest' = rest := by
  rw [decode]
  cases decodeWord (wordOfBytes hi lo) <;> simp [eq_comm]

/-- Settles O2: the two bytes make the encoded word again, and the decoder inverts the encoder on words. -/
theorem decodeOfEncodeIsIdentity : Obligations.DecodeOfEncodeIsIdentity := fun i _ h =>
  decode_eq_ok_iff.mpr ⟨(wordOfBytes_bytes (encode i)).symm ▸ decodeWord_encode h, rfl⟩

/-! A word is the form of its own fields. -/

theorem formA_of_opField (hop : opField w = op) : formA op (nnnField w) = w := hop ▸ formA_fields w

theorem formXI_of_opField (hop : opField w = op) : formXI op (xField w) (nnField w) = w := hop ▸ formXI_fields w

theorem formXY_of_fields {n : BitVec 4} (hop : opField w = op) (hn : nField w = n) :
    formXY op (xField w) (yField w) n = w :=
  hop ▸ hn ▸ formXY_fields w

/-- A row count read from its four bits fits them (R72). -/
theorem spriteRowsOk_nField (w : Word) : spriteRowsOk (nField w).toNat = true :=
  decide_eq_true (Nat.le_of_lt_succ (nField w).isLt)

/-- What the decoder does, family by family (R73): a word of ten families is an instruction whatever its other digits are, and
six families ask for a sub-selector. -/
theorem decodeWord_cases (w : Word) :
    (opField w ∉ ([0x0, 0x5, 0x8, 0x9, 0xE, 0xF] : List (BitVec 4)) ∧
      ∃ i, decodeWord w = .ok i ∧ i.wellFormed = true ∧ encode i = w) ∨
    (opField w = 0x0 ∧ decodeWord w = decodeFamily0 (nnnField w)) ∨
    (opField w = 0x5 ∧ decodeWord w = if nField w = 0x0 then .ok (.seReg (xField w) (yField w)) else .error .family5) ∨
    (opField w = 0x8 ∧ decodeWord w = decodeFamily8 (xField w) (yField w) (nField w)) ∨
    (opField w = 0x9 ∧ decodeWord w = if nField w = 0x0 then .ok (.sneReg (xField w) (yField w)) else .error .family9) ∨
    (opField w = 0xE ∧ decodeWord w = decodeFamilyE (xField w) (nnField w)) ∨
    (opField w = 0xF ∧ decodeWord w = decodeFamilyF (xField w) (nnField w)) := by
  rcases opField_cases w with h | h | h | h | h | h | h | h | h | h | h | h | h | h | h | h <;>
    simp [decodeWord, h, Instr.wellFormed, encode, spriteRowsOk_nField, formA_of_opField, formXI_of_opField,
      formXY_of_fields]

/-! The decoder's choice on a sub-selector of one value, as families 5 and 9 have it. -/

@[simp] theorem ite_ok_error_eq_ok_iff {c : Prop} [Decidable c] {j : Instr} {f : IllegalWord} :
    (if c then .ok j else .error f : Except IllegalWord Instr) = .ok i ↔ c ∧ j = i := by
  by_cases hc : c <;> simp [hc]

@[simp] theorem ite_ok_error_eq_error_iff {c : Prop} [Decidable c] {j : Instr} {e f : IllegalWord} :
    (if c then .ok j else .error f : Except IllegalWord Instr) = .error e ↔ ¬ c ∧ f = e := by
  by_cases hc : c <;> simp [hc]

/-- What decodes is the encoding of the well-formed instruction it decodes to (R73, R74). -/
theorem wellFormed_and_encode_of_decodeWord (h : decodeWord w = .ok i) : i.wellFormed = true ∧ encode i = w := by
  obtain ⟨-, j, e, hj⟩ | ⟨hop, e⟩ | ⟨hop, e⟩ | ⟨hop, e⟩ | ⟨hop, e⟩ | ⟨hop, e⟩ | ⟨hop, e⟩ := decodeWord_cases w <;>
    rw [e] at h
  · cases h
    exact hj
  · exact formA_of_opField hop ▸ decodeFamily0_ok h
  · obtain ⟨hn, rfl⟩ := ite_ok_error_eq_ok_iff.mp h
    exact ⟨rfl, formXY_of_fields hop hn⟩
  · exact formXY_of_fields hop rfl ▸ decodeFamily8_ok h
  · obtain ⟨hn, rfl⟩ := ite_ok_error_eq_ok_iff.mp h
    exact ⟨rfl, formXY_of_fields hop hn⟩
  · exact formXI_of_opField hop ▸ decodeFamilyE_ok h
  · exact formXI_of_opField hop ▸ decodeFamilyF_ok h

/-- The two bytes a word is put together from are the bytes it is cut into (R52). -/
theorem bytes_wordOfBytes (hi lo : Byte) :
    [(wordOfBytes hi lo).extractLsb' 8 8, (wordOfBytes hi lo).extractLsb' 0 8] = [hi, lo] := by
  rw [wordOfBytes, extractLsb'_append_high, extractLsb'_append_low _ _ _ _ le_rfl, extractLsb'_all]

/-- Settles O3: the encoder inverts the decoder on words, and a word is cut into the bytes it was made from. -/
theorem encodeOfDecodeIsIdentity : Obligations.EncodeOfDecodeIsIdentity := by
  intro hi lo rest rest' i h
  obtain ⟨hword, hrest⟩ := decode_eq_ok_iff.mp h
  obtain ⟨hwf, hencode⟩ := wellFormed_and_encode_of_decodeWord hword
  refine ⟨hwf, ?_, hrest⟩
  rw [encodeBytes, hencode, bytes_wordOfBytes]

end Sys2Proof

/-! ## The opcode table, and the words that match no row of it (R74, R75) -/

namespace Sys2Proof

open Laws

variable {w : Word} {i : Instr} {row : OpcodeRow}

/-- The operands of a form lie outside the mask of its row (R74). -/
theorem encode_hits_row (i : Instr) : EncodesIntoRow.Statement i := by
  apply EncodesIntoRow.of_masked
  cases i with
  | cls | ret => rfl
  | jp | call | ldI | jpV0 => exact formA_masked _ _
  | seByte | sneByte | ldByte | addByte | rnd => exact formXI_masked _ _ _
  | drw => exact formXYN_masked _ _ _ _
  | seReg | sneReg | ldReg | orReg | andReg | xorReg | addReg | subReg | shr | subn | shl => exact formXY_masked _ _ _ _
  | skp | sknp | ldVxDt | ldVxK | ldDtVx | ldStVx | addI | ldF | ldB | storeRegs | loadRegs => exact formX_masked _ _ _

theorem hits_row_of_decodeWord (h : decodeWord w = .ok i) : i.row.hits w = true := by
  obtain ⟨-, rfl⟩ := wellFormed_and_encode_of_decodeWord h
  exact encode_hits_row i

theorem row_mem_opcodeTable (i : Instr) : i.row ∈ opcodeTable := by
  cases i <;> simp [Instr.row, opcodeTable]

/-- Each row of the table is an instruction's, namely the one its own pattern decodes to. -/
theorem exists_row_eq (h : row ∈ opcodeTable) : ∃ i : Instr, i.row = row := by
  have hpattern : ∀ r ∈ opcodeTable, (decodeWord r.pattern).toOption.map Instr.row = some r := by decide
  obtain ⟨i, -, hrow⟩ := Option.map_eq_some_iff.mp (hpattern row h)
  exact ⟨i, hrow⟩

theorem and_mask_of_hits (h : row.hits w = true) : w &&& row.mask = row.pattern := beq_iff_eq.mp h

/-- Every mask of the table has the whole family digit. -/
theorem opField_of_hits (hrow : row ∈ opcodeTable) (h : row.hits w = true) : opField w = opField row.pattern := by
  have hmask : ∀ r ∈ opcodeTable, opField r.mask = BitVec.allOnes 4 := by decide
  rw [← and_mask_of_hits h, opField, opField, BitVec.extractLsb'_and, ← opField, ← opField, hmask row hrow,
    BitVec.and_allOnes]

theorem nField_of_hits (h : row.hits w = true) (hmask : row.mask = 0xF00F) : nField w = nField row.pattern := by
  rw [← and_mask_of_hits h, hmask, nField, nField, BitVec.extractLsb'_and]
  exact BitVec.and_allOnes.symm

theorem nnField_of_hits (h : row.hits w = true) (hmask : row.mask = 0xF0FF) : nnField w = nnField row.pattern := by
  rw [← and_mask_of_hits h, hmask, nnField, nnField, BitVec.extractLsb'_and]
  exact BitVec.and_allOnes.symm

/-- A word that matches an instruction's row decodes to an instruction of that row, since family and sub-selector are the
row's. -/
theorem exists_decodeWord_of_hits (h : i.row.hits w = true) : ∃ j, decodeWord w = .ok j ∧ j.row = i.row := by
  have hop := opField_of_hits (row_mem_opcodeTable i) h
  have hn := nField_of_hits h
  have hnn := nnField_of_hits h
  cases i with
  | cls | ret =>
    obtain rfl : w = _ := BitVec.and_allOnes.symm.trans (and_mask_of_hits h)
    exact ⟨_, rfl, rfl⟩
  | jp | call | ldI | jpV0 | seByte | sneByte | ldByte | addByte | rnd | drw => simp +decide [decodeWord, hop, Instr.row]
  | seReg | sneReg => simp +decide [decodeWord, hop, hn rfl, Instr.row]
  | ldReg | orReg | andReg | xorReg | addReg | subReg | shr | subn | shl =>
    simp +decide [decodeWord, decodeFamily8, hop, hn rfl, Instr.row]
  | skp | sknp => simp +decide [decodeWord, decodeFamilyE, hop, hnn rfl, Instr.row]
  | ldVxDt | ldVxK | ldDtVx | ldStVx | addI | ldF | ldB | storeRegs | loadRegs =>
    simp +decide [decodeWord, decodeFamilyF, hop, hnn rfl, Instr.row]

/-- Settles O4: a word that decodes matches its instruction's row, and a word that matches a row decodes to an instruction of
that row, of which there is one only. -/
theorem decodesExactlyByTheOpcodeTable : Obligations.DecodesExactlyByTheOpcodeTable := by
  intro w
  refine ⟨⟨?_, fun hlegal => ?_⟩, fun i hword row hrow => ⟨fun hhits => ?_, ?_⟩⟩
  · rintro ⟨i, hword⟩
    exact List.any_eq_true.mpr ⟨i.row, row_mem_opcodeTable i, hits_row_of_decodeWord hword⟩
  · obtain ⟨row, hrow, hhits⟩ := List.any_eq_true.mp hlegal
    obtain ⟨i, rfl⟩ := exists_row_eq hrow
    obtain ⟨j, hword, -⟩ := exists_decodeWord_of_hits hhits
    exact ⟨j, hword⟩
  · obtain ⟨k, rfl⟩ := exists_row_eq hrow
    obtain ⟨j, hj, hjk⟩ := exists_decodeWord_of_hits hhits
    cases hword.symm.trans hj
    exact hjk.symm
  · rintro rfl
    exact hits_row_of_decodeWord hword

/-! The fields of a word are the digits of its number. -/

theorem opField_toNat (w : Word) : (opField w).toNat = w.toNat / 4096 := by
  simp [opField, Nat.shiftRight_eq_div_pow]
  omega

theorem nField_toNat (w : Word) : (nField w).toNat = w.toNat % 16 := by simp [nField]

theorem nnField_toNat (w : Word) : (nnField w).toNat = w.toNat % 256 := by simp [nnField]

theorem nnnField_toNat (w : Word) : (nnnField w).toNat = w.toNat % 4096 := by simp [nnnField]

/-! The numbers of the sub-selectors that each family rejects (R75). -/

variable {e : IllegalWord} {x y : Reg} {n : BitVec 4} {nn : Byte} {nnn : BitVec 12}

theorem decodeFamily0_eq_error_iff :
    decodeFamily0 nnn = .error e ↔ e = .family0 ∧ nnn.toNat ∉ [0x0E0, 0x0EE] := by
  unfold decodeFamily0
  split_ifs <;> simp_all [BitVec.toNat_eq, eq_comm (a := e)]

theorem decodeFamily8_eq_error_iff :
    decodeFamily8 x y n = .error e ↔ e = .family8 ∧ n.toNat ∈ [0x8, 0x9, 0xA, 0xB, 0xC, 0xD, 0xF] := by
  have := n.isLt
  unfold decodeFamily8
  split_ifs <;> simp_all [BitVec.toNat_eq, eq_comm (a := e)]
  omega

theorem decodeFamilyE_eq_error_iff :
    decodeFamilyE x nn = .error e ↔ e = .familyE ∧ nn.toNat ∉ [0x9E, 0xA1] := by
  unfold decodeFamilyE
  split_ifs <;> simp_all [BitVec.toNat_eq, eq_comm (a := e)]

theorem decodeFamilyF_eq_error_iff :
    decodeFamilyF x nn = .error e ↔
      e = .familyF ∧ nn.toNat ∉ [0x07, 0x0A, 0x15, 0x18, 0x1E, 0x29, 0x33, 0x55, 0x65] := by
  unfold decodeFamilyF
  split_ifs <;> simp_all [BitVec.toNat_eq, eq_comm (a := e)]

/-- A word is rejected by the sub-selector of one of six families (R73, R75). -/
theorem decodeWord_eq_error_iff : decodeWord w = .error e ↔
    (opField w = 0x0 ∧ decodeFamily0 (nnnField w) = .error e) ∨
    (opField w = 0x5 ∧ nField w ≠ 0x0 ∧ e = .family5) ∨
    (opField w = 0x8 ∧ decodeFamily8 (xField w) (yField w) (nField w) = .error e) ∨
    (opField w = 0x9 ∧ nField w ≠ 0x0 ∧ e = .family9) ∨
    (opField w = 0xE ∧ decodeFamilyE (xField w) (nnField w) = .error e) ∨
    (opField w = 0xF ∧ decodeFamilyF (xField w) (nnField w) = .error e) := by
  obtain ⟨hop, i, h, -⟩ | ⟨hop, h⟩ | ⟨hop, h⟩ | ⟨hop, h⟩ | ⟨hop, h⟩ | ⟨hop, h⟩ | ⟨hop, h⟩ :=
    decodeWord_cases w <;> rw [h]
  · simp_all
  · simp [hop]
  · simp [hop, eq_comm (a := e)]
  · simp [hop]
  · simp [hop, eq_comm (a := e)]
  · simp [hop]
  · simp [hop]

/-- Settles O5: one family's sub-selector rejects the word, and its fields are the digits of its number. -/
theorem illegalWordsByFamily : Obligations.IllegalWordsByFamily := by
  intro w
  simp only [decodeWord_eq_error_iff, decodeFamily0_eq_error_iff, decodeFamily8_eq_error_iff, decodeFamilyE_eq_error_iff,
    decodeFamilyF_eq_error_iff, ne_eq, ← BitVec.toNat_inj, opField_toNat, nField_toNat, nnField_toNat, nnnField_toNat]
  simp

/-- Settles O1: twelve closed words, each decoded. -/
theorem sampleWordsDecode : Obligations.SampleWordsDecode := by
  unfold Obligations.SampleWordsDecode
  decide

end Sys2Proof

/-! ## The invariant of reachable states, over one step (R100) -/

namespace Sys2Proof.Machine

variable {s t u : State} {i : Instr}

@[simp] theorem State.finish_stack (s : State) : s.finish.stack = s.stack := by
  unfold State.finish
  split <;> rfl

@[simp] theorem State.finish_params (s : State) : s.finish.params = s.params := by
  unfold State.finish
  split <;> rfl

@[simp] theorem State.finish_mem (s : State) : s.finish.mem = s.mem := by
  unfold State.finish
  split <;> rfl

theorem State.skipIf_mem (s : State) (cond : Bool) : (s.skipIf cond).mem = s.mem := by
  rw [State.skipIf_eq, State.setPc_mem]

@[simp] theorem State.setRegsFrom_mem (s : State) (k : Nat) (bs : List Byte) : (s.setRegsFrom k bs).mem = s.mem := by
  rw [State.setRegsFrom_eq]

/-- The invariant reads pc, the stack, the parameters and memory. -/
theorem Inv.of_eq (h : Inv s) (hpc : t.pc = s.pc) (hstack : t.stack = s.stack) (hparams : t.params = s.params)
    (hmem : t.mem = s.mem) : Inv t where
  pcBound := by rw [hpc]; exact h.pcBound
  slotBound j := by rw [State.slot, hstack]; exact h.slotBound j
  memory := by rw [hparams, hmem]; exact h.memory

theorem Inv.finish (h : Inv s) : Inv s.finish :=
  h.of_eq s.finish_pc s.finish_stack s.finish_params s.finish_mem

theorem Inv.storeBytes (h : Inv s) (base : Nat) (bs : List Byte) : Inv (s.storeBytes base bs) where
  pcBound := by rw [State.storeBytes_pc]; exact h.pcBound
  slotBound j := by rw [State.slot, State.storeBytes_stack]; exact h.slotBound j
  memory := by rw [State.storeBytes_params]; exact State.wf_storeBytes h.memory

/-- A fault taken at pc keeps the invariant: status is no part of it (R95). -/
theorem Inv.takeFault (h : Inv s) (c : FaultCause) (w : Option Word) (n : Option Nat) : Inv (s.takeFault c s.pc w n) :=
  h.of_eq rfl rfl rfl rfl

theorem not_writes_params (s : State) (i : Instr) : ¬ writes s i .params := by
  cases i <;> simp [writes]

theorem exec_params (hf : faultOf s i = none) (h : exec i s = .next t) : t.params = s.params :=
  exec_writesListed hf h .params (not_writes_params s i)

/-- Memory after an instruction is as it was, or as a run of stored bytes leaves it (R31). -/
theorem exec_mem (h : exec i s = .next t) : t.mem = s.mem ∨ ∃ base bs, t.mem = (s.storeBytes base bs).mem := by
  cases i with
  | ldB x =>
    obtain ⟨-, e⟩ | ⟨-, e⟩ := execLdB_cases x s <;> cases h.symm.trans e
    · exact .inl rfl
    · exact .inr ⟨_, _, rfl⟩
  | storeRegs x =>
    obtain ⟨-, e⟩ | ⟨-, e⟩ := execStoreRegs_cases x s <;> cases h.symm.trans e
    · exact .inl rfl
    · exact .inr ⟨_, _, rfl⟩
  | loadRegs x =>
    obtain ⟨-, e⟩ | ⟨-, e⟩ := execLoadRegs_cases x s <;> cases h.symm.trans e
    · exact .inl rfl
    · exact .inl (State.setRegsFrom_mem s _ _)
  | skp x =>
    obtain ⟨-, e⟩ | ⟨k, -, e⟩ := execSkp_cases x s <;> cases h.symm.trans e
    · exact .inl rfl
    · exact .inl (State.skipIf_mem s _)
  | sknp x =>
    obtain ⟨-, e⟩ | ⟨k, -, e⟩ := execSknp_cases x s <;> cases h.symm.trans e
    · exact .inl rfl
    · exact .inl (State.skipIf_mem s _)
  | ret => obtain ⟨-, e⟩ | ⟨_, e⟩ := execRet_cases s <;> cases h.symm.trans e <;> exact .inl rfl
  | call nnn => obtain ⟨-, e⟩ | ⟨_, e⟩ := execCall_cases nnn s <;> cases h.symm.trans e <;> exact .inl rfl
  | drw x y n => obtain ⟨-, -, e⟩ | ⟨-, e⟩ := execDrw_cases x y n s <;> cases h.symm.trans e <;> exact .inl rfl
  | ldVxK x => obtain ⟨-, e⟩ | ⟨k, -, -, e⟩ := execLdVxK_cases x s <;> cases h.symm.trans e <;> exact .inl rfl
  | seByte x nn | sneByte x nn | seReg x y | sneReg x y =>
    cases h
    exact .inl (State.skipIf_mem s _)
  | _ =>
    cases h
    exact .inl rfl

/-- An instruction that raises no fault keeps the canonical form of memory. -/
theorem exec_wf (hm : Memory.wf s.params.font s.mem = true) (hf : faultOf s i = none) (h : exec i s = .next t) :
    Memory.wf t.params.font t.mem = true := by
  rw [exec_params hf h]
  obtain hkept | ⟨base, bs, hstored⟩ := exec_mem h
  · rwa [hkept]
  · rw [hstored]
    exact State.wf_storeBytes hm

/-- The saved pcs after an instruction that raises no fault: those of before, and what a CALL has pushed (R25, R134). -/
theorem exec_slot (hf : faultOf s i = none) (h : exec i s = .next t) (j : Fin 16) :
    t.slot j = s.slot j ∨ t.slot j = s.pc := by
  cases i with
  | call nnn =>
    obtain ⟨hfull, -⟩ | ⟨hroom, e⟩ := execCall_cases nnn s
    · cases (if_pos hfull).symm.trans hf
    · cases h.symm.trans e
      rw [State.slot, Vector.getElem_set]
      split
      · exact .inr rfl
      · exact .inl rfl
  | _ => exact .inl (exec_writesListed hf h (.slot j) (by simp [writes]))

/-- The largest pc of the table of R23: a skip goes to 0x1002 at most, RET to a saved pc, and JP V0 to 0xFF + 0xFFF (R100). -/
theorem nextPc_le (hpc : s.pc.toNat ≤ 0xFFE) (hslot : ∀ j, (s.slot j).toNat ≤ 0x1000) (i : Instr) :
    nextPc s i ≤ 0x10FE := by
  cases i with
  | jp nnn | call nnn =>
    have := nnn.isLt
    show nnn.toNat ≤ 0x10FE
    omega
  | ret => exact (hslot ⟨s.sp.val - 1, by omega⟩).trans (by decide)
  | jpV0 nnn =>
    have := nnn.isLt
    have := (s.reg v0).isLt
    show (s.reg v0).toNat + nnn.toNat ≤ 0x10FE
    omega
  | seByte | sneByte | seReg | sneReg | skp | sknp | ldVxK =>
    simp only [nextPc]
    split <;> omega
  | _ =>
    show s.pc.toNat + 2 ≤ 0x10FE
    omega

/-- An instruction executed after a fetch within memory keeps the invariant. One that faults puts pc back to its own address;
of one that completes the table of R23 says where pc goes, and what it may push is at most 0xFFE + 2 (R100). -/
theorem exec_keepsInv (hs : Inv s) (hpc : s.pc.toNat ≤ 0xFFE) (h : exec i s.advance = .next u) : Inv u := by
  have hadvance : s.advance.pc.toNat = s.pc.toNat + 2 := State.advance_pc_toNat hpc
  obtain ⟨cause, info, -, e⟩ | ⟨hf, -⟩ := exec_faultsOrWritesListed i s.advance
  · cases h.symm.trans e
    exact hs.of_eq (State.advance_pc_sub_two hpc) rfl rfl rfl
  · refine ⟨?_, fun j => ?_, exec_wf (s := s.advance) hs.memory hf h⟩
    · rw [exec_pc_toNat hpc hf h]
      exact nextPc_le hpc hs.slotBound i
    · obtain hkept | hpushed := exec_slot hf h j
      · rw [hkept]
        exact hs.slotBound j
      · rw [hpushed]
        omega

theorem Inv.advance (h : Inv s) (hpc : s.pc.toNat ≤ 0xFFE) : Inv s.advance where
  pcBound := by rw [State.advance_pc_toNat hpc]; omega
  slotBound := h.slotBound
  memory := h.memory

/-- Settles O15: pc is bounded by the table of R23 with the saved pcs, the saved pcs by the pc after a fetch within memory,
and memory changes by stores alone. -/
theorem stepKeepsInvariant : Obligations.StepKeepsInvariant := by
  intro s t hs h
  obtain ⟨-, ⟨a, -, rfl⟩ | ⟨hfetch, -, -, rfl⟩ | ⟨-, -, rfl⟩ | ⟨hfetch, i, u, -, hexec, rfl⟩⟩ := step_cases h
  · exact hs.takeFault _ _ _
  · exact (hs.advance (State.pc_le_of_fetch hfetch)).finish
  · exact hs.takeFault _ _ _
  · exact (exec_keepsInv hs (State.pc_le_of_fetch hfetch) hexec).finish

end Sys2Proof.Machine

/-! ## What a step of a running block answers, and what a Faulted block does (R90 to R96, R99) -/

namespace Sys2Proof.Machine

variable {s t u : State} {i : Instr}

/-! Execute and completion. -/

/-- No instruction is refused or stops the model (R93). -/
theorem exec_total (i : Instr) (s : State) : ∃ t, exec i s = .next t := by
  obtain ⟨cause, info, -, e⟩ | ⟨-, t, e, -⟩ := exec_faultsOrWritesListed i s
  · exact ⟨_, e⟩
  · exact ⟨t, e⟩

theorem State.finish_eq_ite (s : State) : s.finish = if s.status = .running then s.tick else s := by
  cases hs : s.status with
  | running => exact (State.finish_running hs).trans (if_pos rfl).symm
  | faulted rec => exact (State.finish_faulted hs).trans (if_neg nofun).symm

theorem not_writes_status (s : State) (i : Instr) : ¬ writes s i .status := by
  cases i <;> simp [writes]

theorem exec_status (hf : faultOf s i = none) (h : exec i s = .next t) : t.status = s.status :=
  exec_writesListed hf h .status (not_writes_status s i)

/-- An instruction of a running block that leaves it Faulted has taken the fault at its own address (R95, R221). -/
theorem exec_takesFault {rec : FaultRecord} (hrun : s.status = .running) (h : exec i s = .next t)
    (ht : t.status = .faulted rec) : ∃ cause info, t = s.takeFault cause (s.pc - 2) (some (encode i)) info := by
  obtain ⟨cause, info, -, e⟩ | ⟨hf, -⟩ := exec_faultsOrWritesListed i s
  · cases h.symm.trans e
    exact ⟨cause, info, rfl⟩
  · cases ht.symm.trans ((exec_status hf h).trans hrun)

/-- Settles O11: fetch, decode and execute answer in each of their cases. -/
theorem runningStepAlwaysCompletes : Obligations.RunningStepAlwaysCompletes := by
  refine ⟨fun s hrun => ?_, exec_total⟩
  cases hfetch : s.fetchOutOfBounds with
  | some a => exact ⟨_, step_of_fetch_beyond hrun hfetch⟩
  | none =>
    cases hword : decodeWord s.fetchedWord with
    | ok i =>
      obtain ⟨u, hexec⟩ := exec_total i s.advance
      exact ⟨u.finish, (step_of_decoded hrun hfetch hword).trans (congrArg completeStep hexec)⟩
    | error e =>
      rw [step_of_rejected hrun hfetch hword, rejectWord]
      split <;> exact ⟨_, rfl⟩

/-- A fetch at or below 0xFFE is within memory (R53, R91). -/
theorem State.fetch_of_pc_le (hpc : s.pc.toNat ≤ 0xFFE) : s.fetchOutOfBounds = none :=
  outOfBounds_eq_none_iff.mpr (.inr (by omega))

/-- A fetch that reads above 0xFFF begins above 0xFFE (R53, R91). -/
theorem State.lt_pc_of_fetch_beyond {a : Nat} (h : s.fetchOutOfBounds = some a) : 0xFFE < s.pc.toNat := by
  obtain ⟨-, hbeyond, -⟩ := outOfBounds_eq_some_iff.mp h
  omega

/-- Settles O6: the two bytes are the fetched word, and `exec` answers a next state, which the step finishes. -/
theorem stepRunsDecodedInstruction : Obligations.StepRunsDecodedInstruction := by
  intro s i hrun hpc _ hdecode
  obtain ⟨hword, -⟩ := decode_eq_ok_iff.mp hdecode
  obtain ⟨u, hexec⟩ := exec_total i (s.setPc (s.pc + 2))
  rw [step_of_decoded hrun (State.fetch_of_pc_le hpc) hword, State.advance_eq, hexec]
  exact congrArg Host.Outcome.next u.finish_eq_ite

/-! Words the decoder rejects (R92, R94). -/

theorem exists_decodeWord_error_of_not_legal {w : Word} (h : legalWord w = false) : ∃ e, decodeWord w = .error e := by
  cases hword : decodeWord w with
  | error e => exact ⟨e, rfl⟩
  | ok i =>
    obtain ⟨hlegal, -⟩ := decodesExactlyByTheOpcodeTable w
    cases h.symm.trans (hlegal.mp ⟨i, hword⟩)

/-- A rejected word is rejected under the name of family F exactly where its family is F (R75). -/
theorem rejectedAs_familyF_iff {w : Word} {e : IllegalWord} (h : decodeWord w = .error e) :
    e = .familyF ↔ w.toNat / 4096 = 0xF := by
  constructor
  · rintro rfl
    obtain ⟨-, -, -, -, -, hF⟩ := illegalWordsByFamily w
    exact (hF.mp h).1
  · intro hfamily
    have hop : opField w = 0xF := BitVec.eq_of_toNat_eq ((opField_toNat w).trans hfamily)
    have hF : decodeFamilyF (xField w) (nnField w) = .error e := by simpa [hop] using decodeWord_eq_error_iff.mp h
    exact (decodeFamilyF_eq_error_iff.mp hF).1

/-- Settles O8: a word that matches no row is rejected, and the name it is rejected under is its family's. -/
theorem illegalWordFaultsOrIsIgnored : Obligations.IllegalWordFaultsOrIsIgnored := by
  rintro s w hrun hpc rfl hillegal
  obtain ⟨e, hword⟩ := exists_decodeWord_error_of_not_legal hillegal
  have hignored : completeStep (execIgnoredF s.advance) = .next (s.setPc (s.pc + 2)).tick :=
    congrArg Host.Outcome.next (State.finish_running (s := s.advance) hrun)
  rw [step_of_rejected hrun (State.fetch_of_pc_le hpc) hword, rejectWord, hignored]
  exact if_congr (and_congr_left' (rejectedAs_familyF_iff hword)) rfl rfl

/-! Faults are precise (R95, R221). -/

/-- Settles O10: the fault is raised by fetch, by the decoder or by the instruction, and each takes it at the pc before the
step; the instruction's own word is the fetched one. -/
theorem faultsArePrecise : Obligations.FaultsArePrecise := by
  intro s t rec h ht
  obtain ⟨hrun, ⟨a, hfetch, rfl⟩ | ⟨-, -, -, rfl⟩ | ⟨hfetch, -, rfl⟩ | ⟨hfetch, i, u, hword, hexec, rfl⟩⟩ := step_cases h
  · cases ht
    exact ⟨rfl, rfl, (if_neg (by have := State.lt_pc_of_fetch_beyond hfetch; omega)).symm⟩
  · cases hrun.symm.trans (s.advance.finish_status.symm.trans ht)
  · cases ht
    exact ⟨rfl, rfl, (if_pos (State.pc_le_of_fetch hfetch)).symm⟩
  · have hpc := State.pc_le_of_fetch hfetch
    rw [State.finish_status] at ht
    obtain ⟨cause, info, rfl⟩ := exec_takesFault (s := s.advance) hrun hexec ht
    obtain ⟨-, hencode⟩ := wellFormed_and_encode_of_decodeWord hword
    rw [State.finish_faulted ht]
    cases ht
    rw [State.advance_pc_sub_two hpc, hencode]
    exact ⟨rfl, rfl, (if_pos hpc).symm⟩

/-! The timer tick (R96). -/

/-- Settles O13: the tick takes one from what execute leaves in a timer, which is Vx where Fx15 or Fx18 has loaded it and by
the frame the old value else. -/
theorem timersTickOncePerCompletedStep : Obligations.TimersTickOncePerCompletedStep := by
  intro s t h ht
  obtain ⟨hrun, ⟨a, -, rfl⟩ | ⟨-, hword, -, rfl⟩ | ⟨-, -, rfl⟩ | ⟨-, i, u, hword, hexec, rfl⟩⟩ := step_cases h
  · cases ht
  · rw [hword, State.finish_running (s := s.advance) hrun]
    exact ⟨tickTimer_toNat s.dt, tickTimer_toNat s.st⟩
  · cases ht
  · rw [State.finish_status] at ht
    have hf := faultOf_eq_none_of_running hexec ht
    have hframe := exec_writesListed hf hexec
    rw [hword, State.finish_running ht, State.tick_dt, State.tick_st, tickTimer_toNat, tickTimer_toNat]
    constructor
    · cases i with
      | ldDtVx x =>
        cases hexec
        rfl
      | _ => exact congrArg (·.toNat - 1) (hframe .delay (by simp [writes]))
    · cases i with
      | ldStVx x =>
        cases hexec
        rfl
      | _ => exact congrArg (·.toNat - 1) (hframe .sound (by simp [writes]))

/-! A Faulted block (R99). -/

theorem step_of_faulted {rec : FaultRecord} (h : s.status = .faulted rec) : step s = .fault (.stopped rec) := by
  rw [step, stepBlock, h]

theorem stepWith_of_faulted {rec : FaultRecord} (h : s.status = .faulted rec) (rand : Byte) :
    s.stepWith rand = (s, .faulted rec) := by
  rw [State.stepWith, step_of_faulted (s := s.supplyRandom [rand]) h]

/-- A load copies the image or, where it is too large, changes nothing (R264). -/
theorem transact_load (s : State) (image : List Byte) :
    (s.transact (.load image)).1 = s.storeBytes Config.programBase image ∨ (s.transact (.load image)).1 = s := by
  rw [State.transact, State.loadProgram]
  by_cases hfits : image.length ≤ Config.maxProgram
  · exact .inl (by rw [if_pos hfits])
  · exact .inr (by rw [if_neg hfits])

/-- Settles O9: the step answers the stop, and a load, a key change or a read leaves the status. -/
theorem faultedBlockStaysFaulted : Obligations.FaultedBlockStaysFaulted := by
  intro s rec h
  refine ⟨step_of_faulted h, stepWith_of_faulted h, fun tr => ?_⟩
  cases tr with
  | load image =>
    obtain hcopied | hkept := transact_load s image
    · rw [hcopied, State.storeBytes_status, h]
    · rw [hkept, h]
  | step rand =>
    rw [State.transact, stepWith_of_faulted h]
    exact h
  | setKey k pressed => exact h
  | readDisplay => exact h
  | readState => exact h

end Sys2Proof.Machine

/-! ## The invariant along the host's transactions (R240) -/

namespace Sys2Proof.Machine

variable {s : State}

theorem inv_construct (p : Params) : Inv (State.construct p) where
  pcBound := by rw [State.construct_pc]; decide
  slotBound j := by simp [State.slot]
  memory := State.wf_construct p

/-- The block after a step request is the one the step answers, without what is left of the random byte, or the old one
(R90, R99). -/
theorem stepWith_cases (s : State) (rand : Byte) :
    (∃ t, step (s.supplyRandom [rand]) = .next t ∧ s.stepWith rand = (t.supplyRandom [], t.report)) ∨
    (s.stepWith rand).1 = s := by
  rw [State.stepWith]
  cases step (s.supplyRandom [rand]) with
  | next t => exact .inl ⟨t, rfl, rfl⟩
  | fault f => exact .inr rfl
  | refused m => exact .inr rfl

theorem Inv.supplyRandom (h : Inv s) (bytes : List Byte) : Inv (s.supplyRandom bytes) :=
  h.of_eq rfl rfl rfl rfl

theorem Inv.transact (h : Inv s) (tr : Transaction) : Inv (s.transact tr).1 := by
  cases tr with
  | load image =>
    obtain hcopied | hkept := transact_load s image
    · rw [hcopied]
      exact h.storeBytes _ _
    · rwa [hkept]
  | step rand =>
    show Inv (s.stepWith rand).1
    obtain ⟨t, hstep, e⟩ | e := stepWith_cases s rand
    · rw [e]
      exact (stepKeepsInvariant _ t (h.supplyRandom [rand]) hstep).supplyRandom []
    · rwa [e]
  | setKey k pressed => exact h.of_eq rfl rfl rfl rfl
  | readDisplay => exact h
  | readState => exact h

theorem Inv.afterAll (h : Inv s) (ts : List Transaction) : Inv (s.afterAll ts) := by
  induction ts generalizing s with
  | nil => exact h
  | cons tr ts ih => exact ih (h.transact tr)

/-- Settles O17: the invariant holds after construction and every transaction keeps it. -/
theorem everyReachableBlockMeetsInvariant : Obligations.EveryReachableBlockMeetsInvariant :=
  fun p ts => (inv_construct p).afterAll ts

end Sys2Proof.Machine

/-! ## The random byte, which RND alone consumes (R163, R234) -/

namespace Sys2Proof.Machine

variable {s t : State} {i : Instr}

section

variable (bytes : List Byte) (s : State)

theorem State.skipIf_supplyRandom (cond : Bool) :
    (s.supplyRandom bytes).skipIf cond = (s.skipIf cond).supplyRandom bytes := by
  cases cond <;> rfl

theorem State.finish_supplyRandom : (s.supplyRandom bytes).finish = s.finish.supplyRandom bytes := by
  rw [State.finish_eq_ite, State.finish_eq_ite, State.supplyRandom_status]
  split <;> rfl

theorem State.storeBytes_supplyRandom (base : Nat) (bs : List Byte) :
    (s.supplyRandom bytes).storeBytes base bs = (s.storeBytes base bs).supplyRandom bytes := by
  induction bs generalizing s base with
  | nil => rfl
  | cons b bs ih => exact ih (s.storeByte base b) (base + 1)

theorem State.setRegsFrom_supplyRandom (k : Nat) (bs : List Byte) :
    (s.supplyRandom bytes).setRegsFrom k bs = (s.setRegsFrom k bs).supplyRandom bytes := by
  induction bs generalizing s k with
  | nil => rfl
  | cons b bs ih =>
    rw [State.setRegsFrom, State.setRegsFrom]
    split
    · next hk => exact ih (s.setReg ⟨k, hk⟩ b) (k + 1)
    · rfl

theorem State.indexOutOfBounds_supplyRandom (n : Nat) :
    (s.supplyRandom bytes).indexOutOfBounds n = s.indexOutOfBounds n := rfl

theorem State.keyOperand_supplyRandom (x : Reg) : (s.supplyRandom bytes).keyOperand x = s.keyOperand x := rfl

theorem State.lowestKey_supplyRandom : (s.supplyRandom bytes).lowestKey = s.lowestKey := rfl

theorem execRet_supplyRandom :
    execRet (s.supplyRandom bytes) = mapNext (·.supplyRandom bytes) (execRet s) := by
  obtain ⟨hempty, e⟩ | ⟨hpos, e⟩ := execRet_cases s
  · rw [e, execRet_of_empty (s := s.supplyRandom bytes) hempty]
    rfl
  · rw [e, execRet_of_pos (s := s.supplyRandom bytes) hpos]
    rfl

theorem execCall_supplyRandom (nnn : BitVec 12) :
    execCall nnn (s.supplyRandom bytes) = mapNext (·.supplyRandom bytes) (execCall nnn s) := by
  obtain ⟨hfull, e⟩ | ⟨hroom, e⟩ := execCall_cases nnn s
  · rw [e, execCall_of_full nnn (s := s.supplyRandom bytes) hfull]
    rfl
  · rw [e, execCall_of_room nnn (s := s.supplyRandom bytes) hroom]
    rfl

theorem execDrw_supplyRandom (x y : Reg) (n : Nat) :
    execDrw x y n (s.supplyRandom bytes) = mapNext (·.supplyRandom bytes) (execDrw x y n s) := by
  rw [execDrw, execDrw, State.indexOutOfBounds_supplyRandom]
  cases s.indexOutOfBounds n <;> rfl

theorem execSkp_supplyRandom (x : Reg) :
    execSkp x (s.supplyRandom bytes) = mapNext (·.supplyRandom bytes) (execSkp x s) := by
  rw [execSkp, execSkp, State.keyOperand_supplyRandom]
  cases s.keyOperand x with
  | some k => exact congrArg Host.Outcome.next (s.skipIf_supplyRandom bytes _)
  | none => rfl

theorem execSknp_supplyRandom (x : Reg) :
    execSknp x (s.supplyRandom bytes) = mapNext (·.supplyRandom bytes) (execSknp x s) := by
  rw [execSknp, execSknp, State.keyOperand_supplyRandom]
  cases s.keyOperand x with
  | some k => exact congrArg Host.Outcome.next (s.skipIf_supplyRandom bytes _)
  | none => rfl

theorem execLdVxK_supplyRandom (x : Reg) :
    execLdVxK x (s.supplyRandom bytes) = mapNext (·.supplyRandom bytes) (execLdVxK x s) := by
  rw [execLdVxK, execLdVxK, State.lowestKey_supplyRandom]
  cases s.lowestKey <;> rfl

theorem execLdB_supplyRandom (x : Reg) :
    execLdB x (s.supplyRandom bytes) = mapNext (·.supplyRandom bytes) (execLdB x s) := by
  rw [execLdB, execLdB, State.indexOutOfBounds_supplyRandom]
  cases s.indexOutOfBounds 3 with
  | some a => rfl
  | none => exact congrArg Host.Outcome.next (s.storeBytes_supplyRandom bytes _ _)

theorem execStoreRegs_supplyRandom (x : Reg) :
    execStoreRegs x (s.supplyRandom bytes) = mapNext (·.supplyRandom bytes) (execStoreRegs x s) := by
  rw [execStoreRegs, execStoreRegs, State.indexOutOfBounds_supplyRandom]
  cases s.indexOutOfBounds (x.val + 1) with
  | some a => rfl
  | none => exact congrArg Host.Outcome.next (s.storeBytes_supplyRandom bytes _ _)

theorem execLoadRegs_supplyRandom (x : Reg) :
    execLoadRegs x (s.supplyRandom bytes) = mapNext (·.supplyRandom bytes) (execLoadRegs x s) := by
  rw [execLoadRegs, execLoadRegs, State.indexOutOfBounds_supplyRandom]
  cases s.indexOutOfBounds (x.val + 1) with
  | some a => rfl
  | none => exact congrArg Host.Outcome.next (s.setRegsFrom_supplyRandom bytes _ _)

/-- An instruction other than RND does the same whatever bytes are supplied, and leaves them (R163). -/
theorem exec_supplyRandom (hi : ∀ x nn, i ≠ .rnd x nn) :
    exec i (s.supplyRandom bytes) = mapNext (·.supplyRandom bytes) (exec i s) := by
  cases i with
  | rnd x nn => exact absurd rfl (hi x nn)
  | ret => exact execRet_supplyRandom bytes s
  | call nnn => exact execCall_supplyRandom bytes s nnn
  | drw x y n => exact execDrw_supplyRandom bytes s x y n
  | skp x => exact execSkp_supplyRandom bytes s x
  | sknp x => exact execSknp_supplyRandom bytes s x
  | ldVxK x => exact execLdVxK_supplyRandom bytes s x
  | ldB x => exact execLdB_supplyRandom bytes s x
  | storeRegs x => exact execStoreRegs_supplyRandom bytes s x
  | loadRegs x => exact execLoadRegs_supplyRandom bytes s x
  | seByte x nn | sneByte x nn | seReg x y | sneReg x y =>
    exact congrArg Host.Outcome.next (s.skipIf_supplyRandom bytes _)
  | _ => rfl

end

/-- A step that answers a next state, other than an RND's, answers it whatever bytes are supplied, and leaves them. -/
theorem step_supplyRandom (bytes : List Byte) (h : step s = .next t)
    (hword : s.fetchOutOfBounds = none → ∀ x nn, decodeWord s.fetchedWord ≠ .ok (.rnd x nn)) :
    step (s.supplyRandom bytes) = .next (t.supplyRandom bytes) := by
  obtain ⟨hrun, ⟨a, hfetch, rfl⟩ | ⟨hfetch, hreject, hp, rfl⟩ | ⟨hfetch, ⟨e, hreject, hp⟩, rfl⟩ |
    ⟨hfetch, i, u, hdecode, hexec, rfl⟩⟩ := step_cases h
  · exact step_of_fetch_beyond (s := s.supplyRandom bytes) hrun hfetch
  · rw [← State.finish_supplyRandom]
    exact (step_of_rejected (s := s.supplyRandom bytes) hrun hfetch hreject).trans (if_pos ⟨rfl, hp⟩)
  · exact (step_of_rejected (s := s.supplyRandom bytes) hrun hfetch hreject).trans (if_neg hp)
  · have hi : ∀ x nn, i ≠ .rnd x nn := fun x nn hrnd => hword hfetch x nn (hrnd ▸ hdecode)
    have hsame : exec i (s.supplyRandom bytes).advance = .next (u.supplyRandom bytes) :=
      (exec_supplyRandom bytes s.advance hi).trans (congrArg (mapNext _) hexec)
    rw [← State.finish_supplyRandom]
    exact (step_of_decoded (s := s.supplyRandom bytes) hrun hfetch hdecode).trans (congrArg completeStep hsame)

/-- Settles O57: a step request takes away the byte it has supplied, which no step but an RND's has read. -/
theorem randomByteIsReadOnlyByRnd : Obligations.RandomByteIsReadOnlyByRnd := by
  intro s a b hrnd
  cases hs : s.status with
  | faulted rec => rw [stepWith_of_faulted hs, stepWith_of_faulted hs]
  | running =>
    obtain ⟨hcompletes, -⟩ := runningStepAlwaysCompletes
    obtain ⟨t, hstep⟩ := hcompletes s hs
    have hanswer : ∀ rand, s.stepWith rand = (t.supplyRandom [], t.report) := fun rand => by
      rw [State.stepWith, step_supplyRandom [rand] hstep fun hfetch => hrnd hs (State.pc_le_of_fetch hfetch)]
      rfl
    rw [hanswer a, hanswer b]

end Sys2Proof.Machine

/-! ## The sprite engine as one XOR of the covered cells (R110 to R113) -/

namespace Sys2Proof.Machine

/-- The word the encoder gives a well-formed instruction stands for it (R73, R74). -/
theorem standsFor_encode {i : Instr} (h : i.wellFormed = true) : StandsFor (encode i) i :=
  ⟨decodeWord_encode h, rfl⟩

/-- Settles O21: CLS replaces the display by the blank one. -/
theorem clsClearsTheDisplay : Obligations.ClsClearsTheDisplay :=
  ⟨standsFor_encode (i := .cls) rfl, fun s => ⟨_, rfl, Display.cell_blank, frame_setDisp s _⟩⟩

/-- Settles O23: the bounds check comes before the scan, and its fault is the step's only effect. -/
theorem drwBeyondMemoryFaults : Obligations.DrwBeyondMemoryFaults := by
  intro x y n s hpos hn hbeyond
  obtain ⟨-, -, e⟩ | ⟨hin, -⟩ := execDrw_cases x y n s
  · exact e
  · omega

/-! What a part of the scan does, as one XOR of a set of cells. Parts that touch no cell in common compose. -/

/-- From scan `a` to scan `b` exactly the cells of `P` are inverted, and the collision flag is raised exactly where one of them
was lit. -/
structure XorsExactly (P : Fin 64 → Fin 32 → Prop) (a b : Scan) : Prop where
  inverts : ∀ c r, P c r → Display.cell b.1 c r = !Display.cell a.1 c r
  leaves : ∀ c r, ¬ P c r → Display.cell b.1 c r = Display.cell a.1 c r
  collides : b.2 = true ↔ a.2 = true ∨ ∃ c r, P c r ∧ Display.cell a.1 c r = true

section
variable {P Q : Fin 64 → Fin 32 → Prop} {a b d : Scan}

theorem XorsExactly.of_empty (hP : ∀ c r, ¬ P c r) (a : Scan) : XorsExactly P a a :=
  ⟨fun c r h => absurd h (hP c r), fun _ _ _ => rfl, by simp [hP]⟩

/-- Cells inverted by the first part are not seen by the second, so its collisions are with the first display. -/
theorem XorsExactly.trans (h : XorsExactly P a b) (h' : XorsExactly Q b d) (hdisj : ∀ c r, P c r → ¬ Q c r) :
    XorsExactly (fun c r => P c r ∨ Q c r) a d where
  inverts c r hor := by
    obtain hP | hQ := hor
    · rw [h'.leaves c r (hdisj c r hP), h.inverts c r hP]
    · rw [h'.inverts c r hQ, h.leaves c r fun hP => hdisj c r hP hQ]
  leaves c r hnot := by
    obtain ⟨hP, hQ⟩ := not_or.mp hnot
    rw [h'.leaves c r hQ, h.leaves c r hP]
  collides := by
    have hQ : (∃ c r, Q c r ∧ Display.cell b.1 c r = true) ↔ ∃ c r, Q c r ∧ Display.cell a.1 c r = true :=
      exists₂_congr fun c r => and_congr_right fun hQ => by rw [h.leaves c r fun hP => hdisj c r hP hQ]
    simp only [h'.collides, h.collides, hQ, or_and_right, exists_or, or_assoc]

theorem XorsExactly.congr (h : XorsExactly P a b) (hPQ : ∀ c r, P c r ↔ Q c r) : XorsExactly Q a b := by
  obtain rfl : P = Q := funext₂ fun c r => propext (hPQ c r)
  exact h

/-- Two scans that invert the same cells cancel (R113). -/
theorem XorsExactly.cancel (h : XorsExactly P a b) (h' : XorsExactly P (b.1, false) d) : d.1 = a.1 := by
  refine Display.ext_cell fun c r => ?_
  by_cases hP : P c r
  · rw [h'.inverts c r hP, h.inverts c r hP, Bool.not_not]
  · rw [h'.leaves c r hP, h.leaves c r hP]

/-- The cells of the set that are lit after the scan are the ones the scan has turned lit. -/
theorem XorsExactly.lit_after_iff (h : XorsExactly P a b) (c : Fin 64) (r : Fin 32) :
    P c r ∧ Display.cell b.1 c r = true ↔ Display.cell a.1 c r = false ∧ Display.cell b.1 c r = true := by
  by_cases hP : P c r
  · simp [hP, h.inverts c r hP]
  · simp [hP, h.leaves c r hP]

end

/-! The scan, bit by bit, row by row. -/

theorem xorBit_xorsExactly (c : Fin 64) (r : Fin 32) (bit : Bool) (acc : Scan) :
    XorsExactly (fun c' r' => c = c' ∧ r = r' ∧ bit = true) acc (xorBit c r bit acc) where
  inverts := by
    rintro _ _ ⟨rfl, rfl, rfl⟩
    simp [cell_xorBit]
  leaves c' r' hnot := by
    cases bit with
    | false => simp [cell_xorBit]
    | true => rw [cell_xorBit, decide_eq_false (by simpa using hnot), Bool.and_false, Bool.xor_false]
  collides := by simp [hit_xorBit]

/-- A set bit among the first `k` column offsets of a sprite byte falls on the cell in column `c`, row `r`. -/
def rowCovers (x0 row : Nat) (b : Byte) (k : Nat) (c : Fin 64) (r : Fin 32) : Prop :=
  ∃ dc < k, wrapColumn (x0 + dc) = c ∧ wrapRow row = r ∧ spriteBit b dc = true

theorem rowCovers_succ {x0 row : Nat} {b : Byte} {k : Nat} {c : Fin 64} {r : Fin 32} :
    rowCovers x0 row b (k + 1) c r ↔
      rowCovers x0 row b k c r ∨ wrapColumn (x0 + k) = c ∧ wrapRow row = r ∧ spriteBit b k = true := by
  simp only [rowCovers, Nat.exists_lt_succ_right]

/-- Column offsets below 64 reach different columns. -/
theorem wrapColumn_ne {x0 dc dc' : Nat} (hlt : dc < dc') (h64 : dc' < 64) : wrapColumn (x0 + dc) ≠ wrapColumn (x0 + dc') :=
  fun h => by
    have : (x0 + dc) % 64 = (x0 + dc') % 64 := congrArg Fin.val h
    omega

/-- A row of a sprite is one XOR of the cells under its set bits (R111). -/
theorem xorRow_xorsExactly (x0 row : Nat) (b : Byte) (acc : Scan) :
    XorsExactly (rowCovers x0 row b 8) acc (xorRow x0 row b acc) := by
  have scan : ∀ k ≤ 8, XorsExactly (rowCovers x0 row b k) acc
      ((List.range k).foldl (fun acc c => xorBit (wrapColumn (x0 + c)) (wrapRow row) (spriteBit b c) acc) acc) := by
    intro k hk
    induction k with
    | zero => exact .of_empty (by simp [rowCovers]) acc
    | succ k ih =>
      rw [List.range_succ, List.foldl_concat]
      refine ((ih (by omega)).trans (xorBit_xorsExactly _ _ _ _) ?_).congr fun c r => rowCovers_succ.symm
      rintro c r ⟨dc, hdc, hc, -, -⟩ ⟨hc', -, -⟩
      exact wrapColumn_ne hdc (by omega) (hc.trans hc'.symm)
  exact scan 8 le_rfl

/-- A sprite covers a cell by its first row or by the rows under it. -/
theorem covers_cons_iff {x0 row : Nat} {b : Byte} {bs : List Byte} {c : Fin 64} {r : Fin 32} :
    covers x0 row (b :: bs) c r ↔ rowCovers x0 row b 8 c r ∨ covers x0 (row + 1) bs c r := by
  constructor
  · rintro ⟨dc, _ | dr, hdc, hdr, hc, hr, hbit⟩
    · exact .inl ⟨dc, hdc, Fin.ext hc, Fin.ext hr, hbit⟩
    · exact .inr ⟨dc, dr, hdc, Nat.lt_of_succ_lt_succ hdr, hc, by rwa [Nat.add_right_comm], hbit⟩
  · rintro (⟨dc, hdc, hc, hr, hbit⟩ | ⟨dc, dr, hdc, hdr, hc, hr, hbit⟩)
    · exact ⟨dc, 0, hdc, Nat.succ_pos _, congrArg Fin.val hc, congrArg Fin.val hr, hbit⟩
    · exact ⟨dc, dr + 1, hdc, Nat.succ_lt_succ hdr, hc, by rwa [Nat.add_right_comm] at hr, hbit⟩

/-- The rows of a sprite no taller than the display are one XOR of the covered cells (R111, R112). -/
theorem xorRows_xorsExactly (x0 row : Nat) (sprite : List Byte) (acc : Scan) (hrows : sprite.length ≤ 32) :
    XorsExactly (covers x0 row sprite) acc (xorRows x0 row sprite acc) := by
  induction sprite generalizing row acc with
  | nil => exact .of_empty (fun _ _ ⟨_, dr, _, hdr, _⟩ => Nat.not_lt_zero dr hdr) acc
  | cons b bs ih =>
    rw [List.length_cons] at hrows
    refine ((xorRow_xorsExactly x0 row b acc).trans (ih (row + 1) _ (by omega)) ?_).congr fun c r => covers_cons_iff.symm
    rintro c r ⟨_, _, _, hr, _⟩ ⟨_, dr, _, hdr, _, hr', _⟩
    have : row % 32 = r.val := congrArg Fin.val hr
    omega

/-! DRW with its bytes in memory. -/

section
variable {x y : Reg} {n : Nat} {s t : State} {d : Display} {b : Byte}

/-- The display and the collision flag after the scan of DRW Vx, Vy, n (R111). -/
def State.spriteScan (s : State) (x y : Reg) (n : Nat) : Scan :=
  drawSprite (s.spriteColumn x) (s.spriteRow y) (s.bytesAt s.i.toNat n) s.disp

theorem exec_drw_of_inBounds (h : n = 0 ∨ s.i.toNat + n - 1 ≤ 0xFFF) :
    exec (.drw x y n) s = .next ((s.setDisp (s.spriteScan x y n).1).setReg vF (flagByte (s.spriteScan x y n).2)) := by
  obtain ⟨hn, hbeyond, -⟩ | ⟨-, e⟩ := execDrw_cases x y n s
  · omega
  · exact e

theorem spriteScan_xorsExactly (s : State) (x y : Reg) (hn : n ≤ 15) :
    XorsExactly (s.underSprite x y n) (s.disp, false) (s.spriteScan x y n) :=
  xorRows_xorsExactly _ _ _ _ (by rw [State.bytesAt_length]; omega)

/-- The collision flag of a draw: some cell under the sprite was lit (R111). -/
theorem spriteScan_collides (s : State) (x y : Reg) (hn : n ≤ 15) :
    (s.spriteScan x y n).2 = true ↔ ∃ c r, s.underSprite x y n c r ∧ s.cell c r = true :=
  (spriteScan_xorsExactly s x y hn).collides.trans (or_iff_right Bool.false_ne_true)

/-- A draw leaves I and memory, so a second one at the same place has the same sprite under it. -/
theorem underSprite_of_drawn (h : t = (s.setDisp d).setReg vF b) (hx : (t.reg x).toNat % 64 = (s.reg x).toNat % 64)
    (hy : (t.reg y).toNat % 32 = (s.reg y).toNat % 32) : t.underSprite x y n = s.underSprite x y n := by
  have hbytes : t.bytesAt t.i.toNat n = s.bytesAt s.i.toNat n := by rw [h]; rfl
  funext c r
  rw [State.underSprite, State.underSprite, hx, hy, hbytes]

end

/-- Settles O22: the scan is one XOR of the cells under the sprite, since no two of its bits fall on one cell. -/
theorem drwXorsCoveredCells : Obligations.DrwXorsCoveredCells := by
  intro x y n s hn hin
  have hscan := spriteScan_xorsExactly s x y hn
  have hhit := spriteScan_collides s x y hn
  refine ⟨standsFor_encode (i := .drw x y n) (decide_eq_true hn), _, exec_drw_of_inBounds hin,
    hscan.inverts, hscan.leaves, fun hlit => ?_, fun hunlit => ?_,
    ((frame_setDisp s _).trans (frame_setReg _ vF _)).mono fun _ => Or.symm⟩
  · rw [State.reg_setReg_self, hhit.mpr hlit]; rfl
  · rw [State.reg_setReg_self, Bool.eq_false_iff.mpr fun h => hunlit (hhit.mp h)]; rfl

/-- Settles O24: the second draw inverts the same cells again, and the ones it finds lit are the ones the first turned lit. -/
theorem drwTwiceRestoresTheDisplay : Obligations.DrwTwiceRestoresTheDisplay := by
  intro x y n s t u hn hin hst hx hy htu
  have ht := Host.Outcome.next.inj (hst.symm.trans (exec_drw_of_inBounds hin))
  have hi : t.i = s.i := by rw [ht]; rfl
  have hu := Host.Outcome.next.inj (htu.symm.trans (exec_drw_of_inBounds (by rwa [hi])))
  have hdisp : t.disp = (s.spriteScan x y n).1 := by rw [ht]; rfl
  have hsame := underSprite_of_drawn (n := n) ht hx hy
  have hfirst := spriteScan_xorsExactly s x y hn
  have hsecond : XorsExactly (s.underSprite x y n) ((s.spriteScan x y n).1, false) (t.spriteScan x y n) := by
    rw [← hsame, ← hdisp]
    exact spriteScan_xorsExactly t x y hn
  have hcollides : (t.spriteScan x y n).2 = true ↔ ∃ c r, s.cell c r = false ∧ t.cell c r = true := by
    rw [spriteScan_collides t x y hn, hsame]
    refine exists₂_congr fun c r => ?_
    rw [State.cell, State.cell, hdisp]
    exact hfirst.lit_after_iff c r
  rw [hu, State.reg_setReg_self]
  exact ⟨hfirst.cancel hsecond, if_congr hcollides rfl rfl⟩

end Sys2Proof.Machine

/-! ## Control transfer: jumps, the call stack and skips (R130 to R139) -/

namespace Sys2Proof.Machine

variable {s : State} {i : Instr} {j : Fin 16}

/-! Jumps. -/

/-- Settles O26: the new pc is the zero-extended address. -/
theorem jpSetsPc : Obligations.JpSetsPc := fun nnn s =>
  ⟨standsFor_encode (i := .jp nnn) rfl, _, rfl, addressOperand_toNat nnn, frame_setPc s _⟩

/-- Settles O30: a byte plus a 12-bit address fits in pc, so the sum does not wrap. -/
theorem jpV0AddsV0 : Obligations.JpV0AddsV0 := fun nnn s =>
  ⟨standsFor_encode (i := .jpV0 nnn) rfl, _, rfl, s.offsetTarget_toNat nnn, frame_setPc s _⟩

/-! Skips. -/

/-- What an instruction answers whose meaning is a skip on a decided condition: pc alone may change (R131). -/
theorem exec_skip_on {cond : Bool} {P : Prop} [Decidable P] (e : exec i s = .next (s.skipIf cond))
    (hcond : cond = true ↔ P) :
    ∃ t, exec i s = .next t ∧ t.pc = (if P then s.pc + 2 else s.pc) ∧ ChangesOnly (· = .pc) s t :=
  ⟨_, e, (s.skipIf_pc cond).trans (if_congr hcond rfl rfl), frame_skipIf s cond⟩

/-- Settles O28: both meanings are a skip, on equality and on its negation. -/
theorem skipOnByteCompare : Obligations.SkipOnByteCompare := fun x nn _ =>
  ⟨standsFor_encode (i := .seByte x nn) rfl, standsFor_encode (i := .sneByte x nn) rfl,
    exec_skip_on rfl beq_iff_eq, exec_skip_on rfl bne_iff_ne⟩

/-- Settles O29: both meanings are a skip, on equality and on its negation. -/
theorem skipOnRegisterCompare : Obligations.SkipOnRegisterCompare := fun x y _ =>
  ⟨standsFor_encode (i := .seReg x y) rfl, standsFor_encode (i := .sneReg x y) rfl,
    exec_skip_on rfl beq_iff_eq, exec_skip_on rfl bne_iff_ne⟩

/-! The call stack. -/

/-- RET of a stack whose top slot is `j` (R132). -/
theorem exec_ret_of_top (h : j.val + 1 = s.sp.val) :
    exec .ret s = .next { s with sp := j.castSucc, pc := s.slot j } := by
  have hsp : s.sp.val - 1 = j.val := by omega
  refine (execRet_of_pos (by omega)).trans ?_
  simp only [hsp]
  rfl

/-- CALL into the free slot `j` (R134). -/
theorem exec_call_of_free (nnn : BitVec 12) (h : j.val = s.sp.val) :
    exec (.call nnn) s =
      .next { s with stack := s.stack.set j.val s.pc, sp := j.succ, pc := addressOperand nnn } := by
  refine (execCall_of_room nnn (by omega)).trans ?_
  simp only [← h]
  rfl

/-- Settles O25: RET reads the slot below sp, which keeps its value; with no such slot it raises its fault. -/
theorem retPopsOrUnderflows : Obligations.RetPopsOrUnderflows :=
  ⟨standsFor_encode (i := .ret) rfl,
    fun s _ hj => ⟨_, exec_ret_of_top hj, rfl, rfl, frame_pop s _ _⟩,
    fun _ hempty => execRet_of_empty hempty⟩

/-- Settles O27: CALL fills the slot at sp with pc, which is the very slot a RET then reads. -/
theorem callPushesOrOverflows : Obligations.CallPushesOrOverflows := by
  intro nnn s
  refine ⟨standsFor_encode (i := .call nnn) rfl, fun j hj => ?_, execCall_of_full nnn⟩
  have hslot : (s.stack.set j.val s.pc)[j.val] = s.pc := Vector.getElem_set_self j.isLt
  exact ⟨_, exec_call_of_free nnn hj, hslot, rfl, addressOperand_toNat nnn, frame_call s j _ _ _,
    _, exec_ret_of_top (j := j) rfl, hslot, Fin.ext hj⟩

end Sys2Proof.Machine

/-! ## Register and ALU instructions (R150 to R163) -/

namespace Sys2Proof.Machine

variable {s : State} {i : Instr} {x : Reg}

/-! One register written. -/

/-- Settles O31: the one write is `nn` to Vx. -/
theorem ldByteSetsRegister : Obligations.LdByteSetsRegister := fun x nn s =>
  ⟨standsFor_encode (i := .ldByte x nn) rfl, _, rfl, s.reg_setReg_self x nn, frame_setReg s x nn⟩

/-- Settles O32: the one write is the sum of two bytes, which wraps at 256. -/
theorem addByteWrapsWithoutFlag : Obligations.AddByteWrapsWithoutFlag := fun x nn s =>
  ⟨standsFor_encode (i := .addByte x nn) rfl, _, rfl,
    by rw [State.reg_setReg_self, BitVec.toNat_add], frame_setReg s x _⟩

/-- Settles O33: the one write is the old Vy to Vx. -/
theorem ldRegCopiesRegister : Obligations.LdRegCopiesRegister := fun x y s =>
  ⟨standsFor_encode (i := .ldReg x y) rfl, _, rfl, s.reg_setReg_self x _, frame_setReg s x _⟩

/-- Settles O34: each of the three writes one register, with the bit vector operation that acts bit by bit. -/
theorem logicIsBitwiseWithoutFlag : Obligations.LogicIsBitwiseWithoutFlag := fun x y s =>
  ⟨standsFor_encode (i := .orReg x y) rfl, standsFor_encode (i := .andReg x y) rfl,
    standsFor_encode (i := .xorReg x y) rfl,
    ⟨_, rfl, fun _ => by rw [State.reg_setReg_self, BitVec.getLsbD_or], frame_setReg s x _⟩,
    ⟨_, rfl, fun _ => by rw [State.reg_setReg_self, BitVec.getLsbD_and], frame_setReg s x _⟩,
    ⟨_, rfl, fun _ => by rw [State.reg_setReg_self, BitVec.getLsbD_xor], frame_setReg s x _⟩⟩

/-! A result and a flag written, in either order (R150; D8). -/

theorem State.reg_vF_setResultThenFlag (s : State) (x : Reg) (a b : Byte) : (s.setResultThenFlag x a b).reg vF = b :=
  State.reg_setReg_self _ vF b

theorem State.reg_setResultThenFlag_of_ne (a b : Byte) (hx : x ≠ vF) : (s.setResultThenFlag x a b).reg x = a :=
  (State.reg_setReg_ne _ b hx.symm).trans (s.reg_setReg_self x a)

theorem State.reg_setFlagThenResult (s : State) (x : Reg) (a b : Byte) : (s.setFlagThenResult x a b).reg x = a :=
  State.reg_setReg_self _ x a

theorem State.reg_vF_setFlagThenResult_of_ne (a b : Byte) (hx : x ≠ vF) : (s.setFlagThenResult x a b).reg vF = b :=
  (State.reg_setReg_ne _ a hx).trans (s.reg_setReg_self vF b)

theorem frame_setFlagThenResult (s : State) (x : Reg) (a b : Byte) :
    ChangesOnly (fun p => p = .reg x ∨ p = .reg vF) s (s.setFlagThenResult x a b) :=
  (frame_setReg_setReg s vF x b a).mono fun _ => Or.symm

theorem flagByte_carryOut (a b : Byte) : flagByte (carryOut a b) = if 255 < a.toNat + b.toNat then 0x01 else 0x00 :=
  if_congr (carryOut_iff a b) rfl rfl

theorem flagByte_noBorrow (a b : Byte) : flagByte (noBorrow a b) = if b.toNat < a.toNat then 0x01 else 0x00 :=
  if_congr (noBorrow_iff a b) rfl rfl

/-- A difference of bytes with the minuend first, as the rules of SUB and SUBN have it (R158, R160). -/
theorem byte_sub_toNat (a b : Byte) : (a - b).toNat = (a.toNat + 256 - b.toNat) % 256 := by
  have := b.isLt
  rw [BitVec.toNat_sub]
  omega

theorem byte_shiftRight_one_toNat (b : Byte) : (b >>> 1).toNat = b.toNat / 2 := by
  rw [BitVec.toNat_ushiftRight, Nat.shiftRight_one]

theorem byte_shiftLeft_one_toNat (b : Byte) : (b <<< 1).toNat = b.toNat * 2 % 256 := by
  rw [BitVec.toNat_shiftLeft, Nat.shiftLeft_eq, pow_one]

/-- Settles O35: the carry is written last, so VF holds it even where VF is Vx. -/
theorem addRegWritesSumThenCarry : Obligations.AddRegWritesSumThenCarry := fun x y s =>
  ⟨standsFor_encode (i := .addReg x y) rfl, _, rfl,
    by rw [State.reg_vF_setResultThenFlag, flagByte_carryOut],
    fun hx => by rw [State.reg_setResultThenFlag_of_ne _ _ hx, BitVec.toNat_add],
    frame_setReg_setReg s x vF _ _⟩

/-- What an instruction answers whose meaning is a flag written and then a result (R158 to R161): the result, also in VF, and
the flag where another register takes the result. -/
theorem exec_flagThenResult {result flag : Byte} {n : Nat} {Q : Byte → Prop}
    (e : exec i s = .next (s.setFlagThenResult x result flag)) (hresult : result.toNat = n) (hflag : Q flag) :
    ∃ t, exec i s = .next t ∧ (t.reg x).toNat = n ∧ (x ≠ vF → Q (t.reg vF)) ∧
      ChangesOnly (fun p => p = .reg x ∨ p = .reg vF) s t :=
  ⟨_, e, by rw [State.reg_setFlagThenResult, hresult],
    fun hx => by rwa [State.reg_vF_setFlagThenResult_of_ne _ _ hx], frame_setFlagThenResult s x _ _⟩

/-- Settles O36: the difference is written last, so Vx holds it even where Vx is VF. -/
theorem subWritesNoBorrowThenDifference : Obligations.SubWritesNoBorrowThenDifference := fun x y _ =>
  ⟨standsFor_encode (i := .subReg x y) rfl, standsFor_encode (i := .subn x y) rfl,
    exec_flagThenResult (Q := (· = _)) rfl (byte_sub_toNat _ _) (flagByte_noBorrow _ _),
    exec_flagThenResult (Q := (· = _)) rfl (byte_sub_toNat _ _) (flagByte_noBorrow _ _)⟩

/-- Settles O37: the source is the model's shift operand, and the shifted source is written last. -/
theorem shiftsWriteBitThenResult : Obligations.ShiftsWriteBitThenResult := by
  intro x y s src hsrc
  obtain rfl : src = s.shiftOperand x y := hsrc
  exact ⟨standsFor_encode (i := .shr x y) rfl, standsFor_encode (i := .shl x y) rfl,
    exec_flagThenResult (Q := (·.toNat = _)) rfl (byte_shiftRight_one_toNat _) (shiftedOutRight_toNat _),
    exec_flagThenResult (Q := (·.toNat = _)) rfl (byte_shiftLeft_one_toNat _) (shiftedOutLeft_toNat _)⟩

/-! The random byte. -/

theorem State.nextRandom_of_supplied {b : Byte} {rest : List Byte} (h : s.random.script = b :: rest) : s.nextRandom = b := by
  rw [State.nextRandom, h, List.headD_cons]

theorem State.nextRandom_of_unsupplied (h : s.random.script = []) : s.nextRandom = Config.randomByte s.random.drawn := by
  rw [State.nextRandom, h, List.headD_nil]

/-- What RND answers where the RNG service gives it `b` and leaves `rest` of the host's bytes (R163). -/
theorem exec_rnd_of_nextRandom (x : Reg) (nn : Byte) {b : Byte} {rest : List Byte} (hb : s.nextRandom = b)
    (hrest : s.random.script.tail = rest) : ∃ t, exec (.rnd x nn) s = .next t ∧ t.reg x = b &&& nn ∧
      t.random = ⟨rest, s.random.drawn + 1⟩ ∧ ChangesOnly (fun p => p = .reg x ∨ p = .random) s t := by
  subst hb hrest
  exact ⟨_, rfl, State.reg_setReg_self _ x _, rfl,
    ((frame_drawRandom s).trans (frame_setReg _ x _)).mono fun _ => Or.symm⟩

/-- Settles O38: whatever byte is requested, supplied or free, it is masked into Vx and counted once. -/
theorem rndMasksOneRequestedByte : Obligations.RndMasksOneRequestedByte := fun x nn _ =>
  ⟨standsFor_encode (i := .rnd x nn) rfl,
    fun _ _ h => exec_rnd_of_nextRandom x nn (State.nextRandom_of_supplied h) (congrArg List.tail h),
    fun h => exec_rnd_of_nextRandom x nn (State.nextRandom_of_unsupplied h) (congrArg List.tail h)⟩

end Sys2Proof.Machine

/-! ## Index register and memory instructions (R180 to R185) -/

namespace Sys2Proof.Machine

variable {s : State} {i : Instr} {x r : Reg}

/-! The index register. -/

/-- Settles O39: the one write is the zero-extended address to I. -/
theorem ldISetsIndex : Obligations.LdISetsIndex := fun nnn s =>
  ⟨standsFor_encode (i := .ldI nnn) rfl, _, rfl, addressOperand_toNat nnn, frame_setI s _⟩

/-- Settles O40: the one write is the 16-bit sum to I; VF is outside the frame. -/
theorem addIWrapsAtSixteenBits : Obligations.AddIWrapsAtSixteenBits := fun x s =>
  ⟨standsFor_encode (i := .addI x) rfl, _, rfl, s.indexSum_toNat _, frame_setI s _⟩

/-- Settles O41: five times a byte plus 0x050 fits in I, so the glyph address does not wrap. -/
theorem ldFPointsAtGlyph : Obligations.LdFPointsAtGlyph := fun x s =>
  ⟨standsFor_encode (i := .ldF x) rfl, _, rfl, glyphAddress_toNat _, frame_setI s _⟩

/-! Runs of bytes at I. -/

/-- An instruction to which the fault table gives a fault raises it (R220). -/
theorem exec_of_fault {cause : FaultCause} {info : Option Nat} (hf : faultOf s i = some (cause, info)) :
    exec i s = raise cause info i s := by
  obtain ⟨cause', info', hf', e⟩ | ⟨hnone, -⟩ := exec_faultsOrWritesListed i s
  · cases hf.symm.trans hf'
    exact e
  · cases hf.symm.trans hnone

/-- Fx65 with all its bytes in memory loads V0 to Vx (R185). -/
theorem execLoadRegs_of_inBounds (h : s.i.toNat + x.val ≤ 0xFFF) :
    execLoadRegs x s = .next (s.setRegsFrom 0 (s.bytesAt s.i.toNat (x.val + 1))) := by
  obtain ⟨hbeyond, -⟩ | ⟨-, e⟩ := execLoadRegs_cases x s
  · omega
  · exact e

/-- Where V0 to Vx are stored as a run that exists, Vr stands at place `r` (R184). -/
theorem State.byteAt_storeBytes_regsUpTo (s : State) {base : Nat} (hin : base + x.val ≤ 0xFFF) (hr : r ≤ x) :
    (s.storeBytes base (s.regsUpTo x)).byteAt (base + r.val) = s.reg r := by
  have hle : r.val ≤ x.val := hr
  rw [State.byteAt_storeBytes_of_mem s (by rw [State.regsUpTo_length]; omega) (by omega), s.regsUpTo_getD x r hr]

/-- Where V0 to Vx are loaded from a run of bytes, Vr takes the byte at place `r` (R185). -/
theorem State.reg_setRegsFrom_bytesAt (s : State) (base : Nat) (hr : r ≤ x) :
    (s.setRegsFrom 0 (s.bytesAt base (x.val + 1))).reg r = s.byteAt (base + r.val) := by
  have hlt : r.val < x.val + 1 := Nat.lt_succ_of_le hr
  rw [State.reg_setRegsFrom, State.bytesAt_length, if_pos ⟨Nat.zero_le _, by omega⟩, Nat.sub_zero,
    State.bytesAt_getD s base _ _ hlt]

/-- Settles O42: the digits are one run of three bytes at I, checked as a whole before it is stored. -/
theorem ldBStoresDecimalDigits : Obligations.LdBStoresDecimalDigits := by
  intro x s
  refine ⟨standsFor_encode (i := .ldB x) rfl, fun hin => ?_,
    fun hout => exec_of_fault (i := .ldB x) (beyondMemory_eq_some (by omega) (by omega))⟩
  have e := execLdB_of_inBounds (x := x) hin
  have hstored : ∀ d ∈ [(0, (s.reg x).toNat / 100), (1, (s.reg x).toNat / 10 % 10), (2, (s.reg x).toNat % 10)],
      ((s.storeBytes s.i.toNat (decimalDigits (s.reg x))).byteAt (s.i.toNat + d.1)).toNat = d.2 := by
    intro d hd
    obtain ⟨hplace, hdigit⟩ := decimalDigits_getD_toNat (s.reg x) d hd
    rw [decimalDigits_length] at hplace
    rw [State.byteAt_storeBytes_of_mem s hplace (by omega), hdigit]
  refine ⟨_, e, hstored (0, _) (by simp), hstored (1, _) (by simp), hstored (2, _) (by simp),
    (exec_writesListed (i := .ldB x) (beyondMemory_eq_none (.inr (by omega))) e).mono ?_⟩
  rintro p ⟨k, hk, rfl⟩
  interval_cases k <;> simp

/-- Settles O43: the registers are one run of bytes at I, checked as a whole before it is stored. -/
theorem storeRegsCopiesToMemory : Obligations.StoreRegsCopiesToMemory := by
  intro x s
  refine ⟨standsFor_encode (i := .storeRegs x) rfl, fun hin => ?_,
    fun hout => exec_of_fault (i := .storeRegs x) (beyondMemory_eq_some (by omega) (by omega))⟩
  have e := execStoreRegs_of_inBounds hin
  exact ⟨_, e, fun r => s.byteAt_storeBytes_regsUpTo hin,
    exec_writesListed (i := .storeRegs x) (beyondMemory_eq_none (.inr (by omega))) e⟩

/-- Settles O44: the bytes are one run at I, checked as a whole before the first register is written. -/
theorem loadRegsCopiesFromMemory : Obligations.LoadRegsCopiesFromMemory := by
  intro x s
  refine ⟨standsFor_encode (i := .loadRegs x) rfl, fun hin => ?_,
    fun hout => exec_of_fault (i := .loadRegs x) (beyondMemory_eq_some (by omega) (by omega))⟩
  have e := execLoadRegs_of_inBounds hin
  exact ⟨_, e, fun r => s.reg_setRegsFrom_bytesAt s.i.toNat,
    exec_writesListed (i := .loadRegs x) (beyondMemory_eq_none (.inr (by omega))) e⟩

/-- Settles O45: the store leaves I where it is (D14), so the load reads back the very bytes the store wrote. -/
theorem storeThenLoadRestoresRegisters : Obligations.StoreThenLoadRestoresRegisters := by
  intro x s v hin
  obtain ⟨-, hstore, -⟩ := storeRegsCopiesToMemory x s
  obtain ⟨t, ht, hmem, hleft⟩ := hstore hin
  have hi : t.i = s.i := hleft .index (by rintro ⟨_, _, ⟨⟩⟩)
  obtain ⟨-, hload, -⟩ := loadRegsCopiesFromMemory x { t with v := v }
  obtain ⟨u, hu, hloaded, hkept⟩ := hload (by rwa [hi])
  refine ⟨t, u, ht, hu, fun r hr => ?_, fun r hr => hkept (.reg r) ?_⟩
  · calc u.reg r = t.byteAt (t.i.toNat + r.val) := hloaded r hr
      _ = s.reg r := by rw [hi, hmem r hr]
  · rintro ⟨_, hle, ⟨⟩⟩
    exact absurd hle (not_le.mpr hr)

end Sys2Proof.Machine

/-! ## Keypad and timer instructions (R200 to R206) -/

namespace Sys2Proof.Machine

variable {s : State} {x : Reg} {k : Key}

/-! The keypad. -/

/-- SKP of a register that holds the number of key `k` (R201). -/
theorem exec_skp_of_key (hk : k.val = (s.reg x).toNat) : exec (.skp x) s = .next (s.skipIf (s.key k)) := by
  obtain ⟨hbig, -⟩ | ⟨j, hj, e⟩ := execSkp_cases x s
  · omega
  · obtain rfl : j = k := Fin.ext (hj.trans hk.symm)
    exact e

/-- SKNP of a register that holds the number of key `k` (R202). -/
theorem exec_sknp_of_key (hk : k.val = (s.reg x).toNat) : exec (.sknp x) s = .next (s.skipIf (!s.key k)) := by
  obtain ⟨hbig, -⟩ | ⟨j, hj, e⟩ := execSknp_cases x s
  · omega
  · obtain rfl : j = k := Fin.ext (hj.trans hk.symm)
    exact e

/-- Settles O49: with a key number in Vx both meanings are a skip, on the key and on its negation; with none the fault table
has a fault for both. -/
theorem skipOnKey : Obligations.SkipOnKey := fun x _ =>
  ⟨standsFor_encode (i := .skp x) rfl, standsFor_encode (i := .sknp x) rfl,
    fun _ hk => ⟨exec_skip_on (exec_skp_of_key hk) Iff.rfl,
      exec_skip_on (exec_sknp_of_key hk) (Bool.not_eq_true' _).to_iff⟩,
    fun hbig => ⟨exec_of_fault (i := .skp x) (if_pos hbig), exec_of_fault (i := .sknp x) (if_pos hbig)⟩⟩

/-- LD Vx, K where `k` is pressed and no key below it is (R204, D17). -/
theorem exec_ldVxK_of_lowest (hk : s.key k = true) (hlow : ∀ j, j < k → s.key j = false) :
    exec (.ldVxK x) s = .next (s.setReg x (BitVec.ofNat 8 k.val)) := by
  obtain ⟨hnone, -⟩ | ⟨j, hj, hjlow, e⟩ := execLdVxK_cases x s
  · exact absurd hk (ne_true_of_eq_false (hnone k))
  · have hkj : k ≤ j := not_lt.mp fun hlt => absurd hj (ne_true_of_eq_false (hlow j hlt))
    have hjk : j ≤ k := not_lt.mp fun hlt => absurd hk (ne_true_of_eq_false (hjlow k hlt))
    obtain rfl := le_antisymm hjk hkj
    exact e

/-- LD Vx, K where no key is pressed (R204, D17). -/
theorem exec_ldVxK_of_none (hnone : ∀ k, s.key k = false) : exec (.ldVxK x) s = .next (s.setPc (s.pc - 2)) := by
  obtain ⟨-, e⟩ | ⟨k, hk, -⟩ := execLdVxK_cases x s
  · exact e
  · exact absurd hk (ne_true_of_eq_false (hnone k))

theorem keyByte_toNat (k : Key) : (BitVec.ofNat 8 k.val).toNat = k.val :=
  Nat.mod_eq_of_lt (k.isLt.trans (by decide))

/-- Settles O51: one key at most is pressed with none below it, so the model's scan finds that key, or no key at all. -/
theorem ldVxKTakesLowestKeyOrWaits : Obligations.LdVxKTakesLowestKeyOrWaits := fun x s =>
  ⟨standsFor_encode (i := .ldVxK x) rfl,
    fun k hk hlow => ⟨_, exec_ldVxK_of_lowest hk hlow, by rw [State.reg_setReg_self, keyByte_toNat], frame_setReg s x _⟩,
    fun hnone => ⟨_, exec_ldVxK_of_none hnone, s.setPc_pc _, frame_setPc s _⟩⟩

/-! The timers. -/

/-- Settles O50: the one write is the old DT to Vx, so the tick that follows counts down from the old DT. -/
theorem ldVxDtReadsDelay : Obligations.LdVxDtReadsDelay := fun x s =>
  ⟨standsFor_encode (i := .ldVxDt x) rfl, _, rfl, s.reg_setReg_self x _,
    by rw [State.tick_dt, State.setReg_dt, tickTimer_toNat], frame_setReg s x _⟩

/-- Settles O52: the one write of each is Vx to its timer, so the tick that follows counts down from Vx. -/
theorem timerLoads : Obligations.TimerLoads := fun x s =>
  ⟨standsFor_encode (i := .ldDtVx x) rfl, standsFor_encode (i := .ldStVx x) rfl,
    ⟨_, rfl, s.setDt_dt _, by rw [State.tick_dt, State.setDt_dt, tickTimer_toNat], frame_setDt s _⟩,
    ⟨_, rfl, s.setSt_st _, by rw [State.tick_st, State.setSt_st, tickTimer_toNat], frame_setSt s _⟩⟩

end Sys2Proof.Machine

/-! ## Faults raised at execute, and the host's moves (R220, R221, R231 to R233, R240) -/

namespace Sys2Proof.Machine

/-- Settles O12: where the table has a fault the instruction raises it, which is the record taken at pc - 2; where it has none,
the status is on no written-by list and stays Running. -/
theorem executeFaultsExactlyByTheTable : Obligations.ExecuteFaultsExactlyByTheTable := by
  intro i s hrun
  cases hf : faultOf s i with
  | none =>
    obtain ⟨t, e⟩ := exec_total i s
    exact ⟨t, e, (exec_status hf e).trans hrun⟩
  | some fault => exact ⟨_, exec_of_fault hf, rfl⟩

theorem State.key_setKey_self (s : State) (k : Key) (b : Bool) : (s.setKey k b).key k = b :=
  Vector.getElem_set_self k.isLt

/-- Settles O56: a key change is one write to its slot of the latch, and both reads answer from the state they leave. -/
theorem hostMovesChangeOnlyTheirPart : Obligations.HostMovesChangeOnlyTheirPart := fun s k pressed =>
  ⟨⟨s.key_setKey_self k pressed, frame_setKey s k pressed⟩, rfl, rfl⟩

end Sys2Proof.Machine

/-! ## Construction, the loader and the first step (R260 to R266) -/

namespace Sys2Proof.Machine

variable {s t : State} {image : List Byte}

/-- Settles O16: the reset state is the one constructed with the default parameters. -/
theorem invariantAfterConstruction : Obligations.InvariantAfterConstruction :=
  ⟨inv_construct, inv_construct Params.default⟩

/-! Memory as constructed. -/

/-- The glyphs stand one after the other from 0x050 upward, top row first (R262). -/
theorem unlistedByte_glyph (font : Font) (g : Fin 16) (r : Fin 5) :
    unlistedByte font (0x050 + 5 * g.val + r.val) = (font[g.val])[r.val] := by
  have hin : Config.fontBase ≤ 0x050 + 5 * g.val + r.val ∧
      0x050 + 5 * g.val + r.val < Config.fontBase + Config.fontSize := by
    simp only [Config.fontBase, Config.fontSize]
    omega
  have hglyph : (0x050 + 5 * g.val + r.val - Config.fontBase) / 5 = g.val := by
    simp only [Config.fontBase]
    omega
  have hrow : (0x050 + 5 * g.val + r.val - Config.fontBase) % 5 = r.val := by
    simp only [Config.fontBase]
    omega
  rw [unlistedByte, dif_pos hin]
  simp only [hglyph, hrow]

theorem unlistedByte_outside_font (font : Font) {a : Nat} (h : a < 0x050 ∨ 0x0A0 ≤ a) : unlistedByte font a = 0 :=
  dif_neg (by simp only [Config.fontBase, Config.fontSize]; omega)

theorem State.byteAt_construct (p : Params) (a : Nat) : (State.construct p).byteAt a = unlistedByte p.font a := rfl

/-- Settles O53: a register, slot, key or cell is an entry of a replicated vector, and a byte of memory is unlisted. -/
theorem constructionState : Obligations.ConstructionState := by
  rintro p s rfl
  exact ⟨fun r => Vector.getElem_replicate r.isLt, rfl, rfl, rfl, fun j => Vector.getElem_replicate j.isLt, rfl, rfl,
    fun k => Vector.getElem_replicate k.isLt, Display.cell_blank, unlistedByte_glyph p.font,
    fun _ => unlistedByte_outside_font p.font, rfl⟩

/-! The loader. -/

theorem State.loadProgram_of_fits (s : State) (h : image.length ≤ 3584) :
    s.loadProgram image = .ok (s.storeBytes 0x200 image) := if_pos h

theorem State.loadProgram_of_too_large (s : State) (h : 3584 < image.length) :
    s.loadProgram image = .error .programTooLarge := if_neg (Nat.not_le.mpr h)

/-- A load that succeeds has stored the image and done nothing else (R264). -/
theorem State.eq_storeBytes_of_loadProgram (h : s.loadProgram image = .ok t) : t = s.storeBytes 0x200 image := by
  obtain hlarge | hfits := Nat.lt_or_ge 3584 image.length
  · cases h.symm.trans (s.loadProgram_of_too_large hlarge)
  · cases h.symm.trans (s.loadProgram_of_fits hfits)
    rfl

/-- Settles O54: an image that fits ends at or below 0xFFF, so every byte of it is stored. -/
theorem loadProgramCopiesImage : Obligations.LoadProgramCopiesImage := by
  intro s image
  constructor
  · intro hfits
    have hload := s.loadProgram_of_fits hfits
    refine ⟨_, hload, by rw [State.transact, hload], fun k hk => ?_, frame_storeBytes s 0x200 image⟩
    rw [State.byteAt_storeBytes_of_mem s hk (by omega), List.getD_eq_getElem _ _ hk]
  · intro hlarge
    have hload := s.loadProgram_of_too_large hlarge
    exact ⟨hload, by rw [State.transact, hload]⟩

/-! The first step. -/

/-- From 0x200 upward a freshly loaded block reads the image, then zeros (R57, R264). -/
theorem State.byteAt_construct_storeBytes (p : Params) (image : List Byte) {k : Nat} (hk : 0x200 + k ≤ 0xFFF) :
    ((State.construct p).storeBytes 0x200 image).byteAt (0x200 + k) = image.getD k 0 := by
  obtain hin | hout := Nat.lt_or_ge k image.length
  · exact State.byteAt_storeBytes_of_mem _ hin hk
  · rw [State.byteAt_storeBytes, if_neg (by omega), State.byteAt_construct, unlistedByte_outside_font _ (by omega),
      List.getD_eq_default _ _ hout]

/-- The first fetch takes the first two bytes of the image, zeros standing for missing ones (R266). -/
theorem State.fetchedWord_construct_storeBytes (p : Params) (image : List Byte) :
    ((State.construct p).storeBytes 0x200 image).fetchedWord = image.getD 0 0 ++ image.getD 1 0 := by
  rw [State.fetchedWord, State.storeBytes_pc, wordOfBytes]
  exact congrArg₂ _ (State.byteAt_construct_storeBytes p image (k := 0) (by decide))
    (State.byteAt_construct_storeBytes p image (k := 1) (by decide))

/-- A block at 0x200 fetches within memory, whatever has been loaded. -/
theorem State.fetch_construct_storeBytes (p : Params) (image : List Byte) :
    ((State.construct p).storeBytes 0x200 image).fetchOutOfBounds = none :=
  State.fetch_of_pc_le (by rw [State.storeBytes_pc, State.construct_pc]; decide)

/-- Settles O55: loading leaves the block Running at 0x200, where the fetch reads the image; with none it reads the word 0, which
the decoder rejects in family 0. -/
theorem bootRunsFirstImageWord : Obligations.BootRunsFirstImageWord := by
  intro p
  refine ⟨fun b0 b1 rest t i hload hword => ?_, fun b t hload => ?_, ?_⟩
  · obtain rfl := State.eq_storeBytes_of_loadProgram hload
    have hfetched := State.fetchedWord_construct_storeBytes p (b0 :: b1 :: rest)
    rw [step_of_decoded (State.storeBytes_status ..) (State.fetch_construct_storeBytes p _) (hfetched ▸ hword),
      State.advance_eq, State.storeBytes_pc]
    rfl
  · obtain rfl := State.eq_storeBytes_of_loadProgram hload
    exact State.fetchedWord_construct_storeBytes p [b]
  · have hfetched : (State.construct p).fetchedWord = 0 := State.fetchedWord_construct_storeBytes p []
    have hrejected : decodeWord (State.construct p).fetchedWord = .error .family0 := by rw [hfetched]; decide
    rw [step_of_rejected (s := State.construct p) rfl (State.fetch_construct_storeBytes p []) hrejected, rejectWord,
      if_neg (by simp), hfetched]
    rfl

end Sys2Proof.Machine
